-- ==== Sys2Proof/Word.lean ====
section
/-! DEFINITION. The widths of the N-105 (00_scope.md R5, R8): registers, addresses and instructions are 16 bits,
the stored unit is a byte, a register is one of sixteen. -/

namespace Sys2Proof

/-- A byte of a memory image (20_memory.md R54). -/
abbrev Byte := BitVec 8

/-- A register, an address, an instruction, a half word of memory: 16 bits (R5; of the pc by `PC_WIDTH`, log 1). -/
abbrev Word := BitVec 16

/-- The index of a general register, r0 to r15 (10_state.md R21). -/
abbrev Reg := Fin 16

/-- r15, the link register (10_state.md R22). -/
def linkReg : Reg := 15

end Sys2Proof
end

