-- ==== Sys2Proof/Syntax.lean ====
section
/-! DEFINITION. The syntax of the N-105: the 22 instructions of the quick reference and the pseudo-instruction `nop`
(30_encoding.md R90, R101), one constructor for each row of spec/opcode_table.json, and the fourteen conditions
of IFS (R96). Fields carry the bits of the encoding; the meanings extend and scale them. -/

namespace Sys2Proof

/-- The fourteen conditions of 30_encoding.md R96, each under the first of its symbols (`ge` is the spec's name of row 8). -/
inductive Cond where
  | cc | cs | ne | eq | pl | mi | lt | ge | gt | le | vc | vs | hi | la
  deriving DecidableEq, Repr

/-- An N-105 instruction. `a` is field A (bits 15:12), `b` field B (bits 11:8), then the immediate of the format
(30_encoding.md R82 to R88). -/
inductive Instr where
  -- logic, 40_logic.md
  | or (a b : Reg)
  | and (a b : Reg)
  | xor (a b : Reg)
  | not (a : Reg)
  /-- `or r0 r0`, the word the table lists as NOP (R101, R125; log 15). -/
  | nop
  -- move and register arithmetic, 41_move_arith.md
  | mov (a b : Reg)
  | add (a b : Reg)
  | sub (a b : Reg)
  | cmp (a b : Reg)
  -- shift and rotate, 42_shift.md; in `lsli` the field is 16 minus the distance (R88)
  | lsli (a : Reg) (imm4 : BitVec 4)
  | lsri (a : Reg) (imm4 : BitVec 4)
  | asri (a : Reg) (imm4 : BitVec 4)
  | roti (a : Reg) (imm4 : BitVec 4)
  -- immediate, 43_immediate.md
  | movi (a : Reg) (imm7 : BitVec 7)
  | addi (a : Reg) (imm7 : BitVec 7)
  | subi (a : Reg) (imm7 : BitVec 7)
  | cmpi (a : Reg) (imm7 : BitVec 7)
  -- load and store, 44_load_store.md
  | ld (a b : Reg)
  | st (a b : Reg)
  -- control transfer, 45_branch.md
  | br (imm11 : BitVec 11)
  | bsr (imm11 : BitVec 11)
  | ret
  -- conditional execution, 46_conditional.md; the field is the condition code
  | ifs (code : BitVec 4)
  deriving DecidableEq, Repr

end Sys2Proof
end

