-- ==== Sys2Proof/Config.lean ====
section
/-! DEFINITION. The parameters the manual leaves open (00_scope.md R6), as one record of plain data, and the free
values: constants without a body, of which nothing can be proved. The record stands in State as `cfg`, so that a
statement about every state is a statement about every choice of the parameters (log 10). -/

namespace Sys2Proof

/-- `PC_WIDTH`: the width of pc and xpc. 16 is the one value the spec gives (D1), and no rule says what a pc of another width
would do (log 1). -/
inductive PcWidth where
  | sixteen
  deriving DecidableEq, Repr

/-- The width as a number: address arithmetic is modulo 2 to it. -/
def PcWidth.bits : PcWidth → Nat
  | .sixteen => 16

/-- `BYTE_ORDER`: which byte of a half word lies at the even address (20_memory.md R54, D15). -/
inductive ByteOrder where
  | little | big
  deriving DecidableEq, Repr

/-- `BRANCH_SCALE`: the factor on imm11, 1 or 2 (30_encoding.md R87, D4). -/
inductive BranchScale where
  | one | two
  deriving DecidableEq, Repr

/-- `RET_OPCODE`: the two candidates of 30_encoding.md R91 (D5). -/
inductive RetOpcode where
  | op11010 | op11011
  deriving DecidableEq, Repr

/-- `LSLI_ZERO`: LSLI with field 0 (42_shift.md R141, D12). `either` is the model's own value: the result is one of
the two the manual allows, and which one is free (log 6). -/
inductive LsliZero where
  | identity | zero | refuse | either
  deriving DecidableEq, Repr

/-- `ALLOW_BRANCH_IN_SLOT`: a branch in a delay slot has the meaning of 45_branch.md R175 or is refused (D22). -/
inductive SlotBranch where
  | allow | refuse
  deriving DecidableEq, Repr

/-- The model's own parameter `UNDEF_FLAG_READ` (log 5): an IFS that reads an undefined flag faults, which is the rule
(46_conditional.md R183, D23) and what the spec's parameters and State.reset hold, or goes the way a free value of that
flag sends it. -/
inductive UndefFlagRead where
  | fault | free
  deriving DecidableEq, Repr

/-- The storage behind an interface of the bus (20_memory.md R50, R51). -/
inductive Storage where
  | instruction | data
  deriving DecidableEq, Repr

/-- A range of addresses, both ends included. -/
structure Region where
  lo : Nat
  hi : Nat
  deriving DecidableEq, Repr

/-- The parameters of 00_scope.md R6, and `UNDEF_FLAG_READ`, the model's own (log 5). -/
structure Config where
  pcWidth : PcWidth
  branchScale : BranchScale
  retOpcode : RetOpcode
  /-- `CC_HIGH`: the meaning of codes 0x8, 0x9, …; a code past the end of the list, or at `none`, has none (R96, R97). -/
  ccHigh : List (Option Cond)
  lsliZero : LsliZero
  subCarryIsBorrow : Bool
  strictXBits : Bool
  unifiedMemory : Bool
  byteOrder : ByteOrder
  imemRegions : List Region
  dmemRegions : List Region
  ioRegions : List Region
  resetPc : Word
  haltPc : Option Word
  branchInSlot : SlotBranch
  undefFlagRead : UndefFlagRead
  deriving DecidableEq, Repr

/-- The value an undefined flag has on the hardware, one for each draw (10_state.md R28: "a draw the program may not
rely on"). Free: no body (log 4). -/
opaque Config.freeFlag : Nat → Bool

/-- The byte a storage holds at launch at an address nothing has written since and no image fills: the spec gives it no value
(10_state.md R34, 44_load_store.md R161). Free: no body (log 8). -/
opaque Config.launchByte : Storage → Nat → Byte

/-- What a device answers to a read of an address of `io_region`: the platform's oracle (20_memory.md R57, R60). The
first argument numbers the draw, so that two reads need not agree. Free: no body (log 12). -/
opaque Config.oracle : Nat → Word → Word

/-- Whether the fetch that raced with a store read the old word (20_memory.md R66). Free: no body (log 14). -/
opaque Config.fetchSawOld : Nat → Bool

/-- Whether this implementation's LSLI with field 0 clears the register (the other reading leaves it alone; 42_shift.md
R141, D12). Free: no body (log 6). -/
opaque Config.lsliZeroClears : Bool

end Sys2Proof
end

