-- ==== Sys2Proof/WellFormed.lean ====
section
/-! DEFINITION. What is checked of a term before it counts as an instruction or as a set of parameters. The fields of
`Instr` have exactly the widths of the encoding, so one check is left for instructions: the word 0x0000 has one
spelling. -/

namespace Sys2Proof

/-- `or r0 r0` is spelt `nop` (30_encoding.md R101, log 15); every other term is well formed. -/
def Instr.wf : Instr → Bool
  | .or a b => !(a == 0 && b == 0)
  | .and _ _ => true
  | .xor _ _ => true
  | .not _ => true
  | .nop => true
  | .mov _ _ => true
  | .add _ _ => true
  | .sub _ _ => true
  | .cmp _ _ => true
  | .lsli _ _ => true
  | .lsri _ _ => true
  | .asri _ _ => true
  | .roti _ _ => true
  | .movi _ _ => true
  | .addi _ _ => true
  | .subi _ _ => true
  | .cmpi _ _ => true
  | .ld _ _ => true
  | .st _ _ => true
  | .br _ => true
  | .bsr _ => true
  | .ret => true
  | .ifs _ => true

/-- A region is a non-empty range inside the 16-bit address space (20_memory.md R52). -/
def Region.wf (r : Region) : Bool :=
  decide (r.lo ≤ r.hi) && decide (r.hi < 65536)

/-- Parameters the spec admits: an even `RESET_PC` (10_state.md R26), at most the eight codes 0x8 to 0xF in `CC_HIGH`
(30_encoding.md R96), regions inside the address space. -/
def Config.wf (c : Config) : Bool :=
  !c.resetPc[0] && decide (c.ccHigh.length ≤ 8)
    && c.imemRegions.all Region.wf && c.dmemRegions.all Region.wf && c.ioRegions.all Region.wf

end Sys2Proof
end

