-- ==== Sys2Proof/Machine/Parameters.lean ====
section
/-! DEFINITION. Two choices of the parameters of 00_scope.md R6: the spec's defaults, word for word, and the ones
State.reset holds, which differ where the default would refuse an instruction the spec gives an effect (log 10). -/

namespace Sys2Proof

/-- All of the 16-bit address space (20_memory.md R52). -/
def wholeSpace : List Region := [⟨0, 65535⟩]

/-- Rows 9 to 14 of the condition table in order: codes 0x8 to 0xD (30_encoding.md R96, D6). -/
def ccHighInOrder : List (Option Cond) :=
  [some .gt, some .le, some .vc, some .vs, some .hi, some .la]

/-- The column "default of this spec" of R6. What the spec leaves to the platform without a default is here all of the
address space for `imem_admits` and `dmem_admits`, and no `HALT_PC` (log 11, log 24). -/
def Config.specDefault : Config where
  pcWidth := .sixteen
  branchScale := .one
  retOpcode := .op11010
  ccHigh := ccHighInOrder
  lsliZero := .refuse
  subCarryIsBorrow := true
  strictXBits := false
  unifiedMemory := false
  byteOrder := .little
  imemRegions := wholeSpace
  dmemRegions := wholeSpace
  ioRegions := []
  resetPc := 0x0000
  haltPc := none
  branchInSlot := .refuse
  undefFlagRead := .fault

/-- The parameters of State.reset: R6's defaults, but that LSLI with field 0 gives one of the two results the manual
allows (log 6), and a branch in a delay slot has the meaning of 45_branch.md R175 (log 7). -/
def Config.running : Config :=
  { Config.specDefault with lsliZero := .either, branchInSlot := .allow }

/-- Address arithmetic of pc and xpc, modulo 2 to `PC_WIDTH` (10_state.md R25, R26). -/
def Config.pcAdd (c : Config) (a d : Word) : Word :=
  BitVec.ofNat 16 ((a.toNat + d.toNat) % 2 ^ c.pcWidth.bits)

end Sys2Proof
end

