-- ==== Sys2Proof/Decode.lean ====
section
/-! DEFINITION. The decoder and the encoder of the N-105 (30_encoding.md R80 to R94, R102). The decoder is total: a word is
one instruction with its operands, or it is refused by name. -/

namespace Sys2Proof

/-- Why a word is no instruction (60_exceptions.md R201), or why bytes hold no word. -/
inductive DecodeError where
  /-- bits 4:0 are an unassigned opcode (30_encoding.md R94) -/
  | illegalInstruction (w : Word)
  /-- an unused bit is 1 and `STRICT_X_BITS` is true (R93) -/
  | reservedBits (w : Word)
  /-- fewer than two bytes: there is no whole word to decode (R80) -/
  | truncated
  deriving DecidableEq, Repr

/-! ### Half words as bytes (20_memory.md R54) -/

/-- The half word of the byte at the even address and the byte after it. -/
def joinBytes (o : ByteOrder) (first second : Byte) : Word :=
  match o with
  | .little => second ++ first
  | .big => first ++ second

/-- The byte of a half word that lies at the even address. -/
def firstByte (o : ByteOrder) (v : Word) : Byte :=
  match o with
  | .little => v.extractLsb' 0 8
  | .big => v.extractLsb' 8 8

/-- The byte of a half word that lies at the odd address. -/
def secondByte (o : ByteOrder) (v : Word) : Byte :=
  match o with
  | .little => v.extractLsb' 8 8
  | .big => v.extractLsb' 0 8

/-! ### Fields (30_encoding.md R82, R84 to R87) -/

/-- The opcode, bits 4:0 (R81). -/
def opcodeField (w : Word) : BitVec 5 := w.extractLsb' 0 5

/-- Field A, bits 15:12. -/
def fieldA (w : Word) : Reg := (w.extractLsb' 12 4).toFin

/-- Field B, bits 11:8. -/
def fieldB (w : Word) : Reg := (w.extractLsb' 8 4).toFin

/-- imm4, bits 11:8. -/
def fieldImm4 (w : Word) : BitVec 4 := w.extractLsb' 8 4

/-- imm7, bits 11:5. -/
def fieldImm7 (w : Word) : BitVec 7 := w.extractLsb' 5 7

/-- imm11, bits 15:5. -/
def fieldImm11 (w : Word) : BitVec 11 := w.extractLsb' 5 11

/-- The bits an instruction does not use (R93): 7:5 of FAB and FAI4, 11:5 of NOT, 15:5 of RET, 15:12 and 7:5 of IFS. -/
def xMask : Instr → Word
  | .or _ _ => 0x00E0
  | .and _ _ => 0x00E0
  | .xor _ _ => 0x00E0
  | .not _ => 0x0FE0
  | .nop => 0x00E0
  | .mov _ _ => 0x00E0
  | .add _ _ => 0x00E0
  | .sub _ _ => 0x00E0
  | .cmp _ _ => 0x00E0
  | .lsli _ _ => 0x00E0
  | .lsri _ _ => 0x00E0
  | .asri _ _ => 0x00E0
  | .roti _ _ => 0x00E0
  | .movi _ _ => 0x0000
  | .addi _ _ => 0x0000
  | .subi _ _ => 0x0000
  | .cmpi _ _ => 0x0000
  | .ld _ _ => 0x00E0
  | .st _ _ => 0x00E0
  | .br _ => 0x0000
  | .bsr _ => 0x0000
  | .ret => 0xFFE0
  | .ifs _ => 0xF0E0

/-! ### Decoding (30_encoding.md R102) -/

/-- The row of the opcode map (R90) that bits 4:0 select, with its operands; `none` for an unassigned opcode. Of the two
candidates for RET one is RET and the other unassigned (R91). -/
def decodeRow (c : Config) (w : Word) : Option Instr :=
  match (opcodeField w).toNat with
  | 0x00 => some (if fieldA w = 0 ∧ fieldB w = 0 then .nop else .or (fieldA w) (fieldB w))
  | 0x01 => some (.and (fieldA w) (fieldB w))
  | 0x02 => some (.xor (fieldA w) (fieldB w))
  | 0x03 => some (.not (fieldA w))
  | 0x04 => some (.mov (fieldA w) (fieldB w))
  | 0x05 => some (.add (fieldA w) (fieldB w))
  | 0x06 => some (.sub (fieldA w) (fieldB w))
  | 0x07 => some (.cmp (fieldA w) (fieldB w))
  | 0x08 => some (.lsli (fieldA w) (fieldImm4 w))
  | 0x09 => some (.lsri (fieldA w) (fieldImm4 w))
  | 0x0A => some (.asri (fieldA w) (fieldImm4 w))
  | 0x0B => some (.roti (fieldA w) (fieldImm4 w))
  | 0x0C => some (.movi (fieldA w) (fieldImm7 w))
  | 0x0D => some (.addi (fieldA w) (fieldImm7 w))
  | 0x0E => some (.subi (fieldA w) (fieldImm7 w))
  | 0x0F => some (.cmpi (fieldA w) (fieldImm7 w))
  | 0x10 => some (.ld (fieldA w) (fieldB w))
  | 0x14 => some (.st (fieldA w) (fieldB w))
  | 0x18 => some (.br (fieldImm11 w))
  | 0x19 => some (.bsr (fieldImm11 w))
  | 0x1A => if c.retOpcode = .op11010 then some .ret else none
  | 0x1B => if c.retOpcode = .op11011 then some .ret else none
  | 0x1F => some (.ifs (fieldImm4 w))
  | _ => none

/-- The instruction a word stands for. `IllegalInstruction` is found before `ReservedBits` (60_exceptions.md R202). -/
def decode (c : Config) (w : Word) : Except DecodeError Instr :=
  match decodeRow c w with
  | none => .error (.illegalInstruction w)
  | some i => if c.strictXBits ∧ w &&& xMask i ≠ 0 then .error (.reservedBits w) else .ok i

/-- The first instruction of a sequence of bytes, and the bytes after it: every instruction is one half word (R80). -/
def decodeBytes (c : Config) : List Byte → Except DecodeError (Instr × List Byte)
  | first :: second :: rest => (decode c (joinBytes c.byteOrder first second)).map fun i => (i, rest)
  | _ => .error .truncated

/-! ### Encoding: the fields in their places, 0 in the unused bits (30_encoding.md R93, R102) -/

/-- Format FAB; NOT and RET are it with unused fields 0. -/
def packAB (a b : Reg) (op : BitVec 5) : Word :=
  (BitVec.ofFin a : BitVec 4) ++ (BitVec.ofFin b : BitVec 4) ++ (0#3) ++ op

/-- Format FAI4. -/
def packAI4 (a : Reg) (imm4 : BitVec 4) (op : BitVec 5) : Word :=
  (BitVec.ofFin a : BitVec 4) ++ imm4 ++ (0#3) ++ op

/-- Format FAI7. -/
def packAI7 (a : Reg) (imm7 : BitVec 7) (op : BitVec 5) : Word :=
  (BitVec.ofFin a : BitVec 4) ++ imm7 ++ op

/-- Format FI11. -/
def packI11 (imm11 : BitVec 11) (op : BitVec 5) : Word := imm11 ++ op

/-- The 5-bit opcode of an instruction (R90; RET by `RET_OPCODE`, R91). -/
def opcodeOf (c : Config) : Instr → BitVec 5
  | .or _ _ => 0b00000
  | .and _ _ => 0b00001
  | .xor _ _ => 0b00010
  | .not _ => 0b00011
  | .nop => 0b00000
  | .mov _ _ => 0b00100
  | .add _ _ => 0b00101
  | .sub _ _ => 0b00110
  | .cmp _ _ => 0b00111
  | .lsli _ _ => 0b01000
  | .lsri _ _ => 0b01001
  | .asri _ _ => 0b01010
  | .roti _ _ => 0b01011
  | .movi _ _ => 0b01100
  | .addi _ _ => 0b01101
  | .subi _ _ => 0b01110
  | .cmpi _ _ => 0b01111
  | .ld _ _ => 0b10000
  | .st _ _ => 0b10100
  | .br _ => 0b11000
  | .bsr _ => 0b11001
  | .ret => match c.retOpcode with
    | .op11010 => 0b11010
    | .op11011 => 0b11011
  | .ifs _ => 0b11111

/-- The word of an instruction. -/
def encode (c : Config) (i : Instr) : Word :=
  match i with
  | .or a b => packAB a b (opcodeOf c i)
  | .and a b => packAB a b (opcodeOf c i)
  | .xor a b => packAB a b (opcodeOf c i)
  | .not a => packAB a 0 (opcodeOf c i)
  | .nop => packAB 0 0 (opcodeOf c i)
  | .mov a b => packAB a b (opcodeOf c i)
  | .add a b => packAB a b (opcodeOf c i)
  | .sub a b => packAB a b (opcodeOf c i)
  | .cmp a b => packAB a b (opcodeOf c i)
  | .lsli a n => packAI4 a n (opcodeOf c i)
  | .lsri a n => packAI4 a n (opcodeOf c i)
  | .asri a n => packAI4 a n (opcodeOf c i)
  | .roti a n => packAI4 a n (opcodeOf c i)
  | .movi a n => packAI7 a n (opcodeOf c i)
  | .addi a n => packAI7 a n (opcodeOf c i)
  | .subi a n => packAI7 a n (opcodeOf c i)
  | .cmpi a n => packAI7 a n (opcodeOf c i)
  | .ld a b => packAB a b (opcodeOf c i)
  | .st a b => packAB a b (opcodeOf c i)
  | .br n => packI11 n (opcodeOf c i)
  | .bsr n => packI11 n (opcodeOf c i)
  | .ret => packAB 0 0 (opcodeOf c i)
  | .ifs code => packAI4 0 code (opcodeOf c i)

/-- The word of an instruction as the bytes of an image. -/
def encodeBytes (c : Config) (i : Instr) : List Byte :=
  [firstByte c.byteOrder (encode c i), secondByte c.byteOrder (encode c i)]

/-- The instruction the decoder reads from the low `nbits` bits of `w`, numbered as spec/opcode_table.json numbers them
(bit 0 least significant), with the parameters of State.reset. An instruction is one 16-bit word, laid out as two bytes. -/
def decodeTableWord (nbits w : Nat) : Option Instr :=
  let v : Word := BitVec.ofNat 16 (w % 2 ^ nbits)
  let o := Config.running.byteOrder
  match decodeBytes Config.running [firstByte o v, secondByte o v] with
  | .ok (i, _) => some i
  | .error _ => none

end Sys2Proof
end

