-- ==== Sys2Proof/Machine/State.lean ====
section
/-! DEFINITION. The state of the N-105 (10_state.md R20), the reasons a step can stop (60_exceptions.md R201) and the
state after reset (10_state.md R34). -/

namespace Sys2Proof.Machine

open Sys2Proof

/-- A memory: (byte address, byte) pairs, an unlisted address having no value yet (log 8). Its canonical form is `Memory.wf` (Ops.lean). -/
abbrev Memory := List Host.Cell

/-- A condition flag: 0, 1, or undefined (10_state.md R28). An undefined flag carries the number of its draw, so that it has
ONE unknown value, `Config.freeFlag` of that number, until an instruction sets it again (log 4). -/
inductive Flag where
  | known (b : Bool)
  | undef (draw : Nat)
  deriving DecidableEq, Repr

/-- The four condition flags (R27). They are no register: no instruction reads or writes them as a value. -/
structure Flags where
  n : Flag
  v : Flag
  z : Flag
  c : Flag
  deriving DecidableEq, Repr

/-- A transfer handed to a device of `io_region` (20_memory.md R57, R58). -/
inductive IoEvent where
  | read (a : Word)
  | write (a v : Word)
  deriving DecidableEq, Repr

/-- The state of the machine. -/
structure State where
  /-- x[0] to x[15] (R21); x[15] is the link register (R22) -/
  regs : Vector Word 16
  /-- the address of the instruction being fetched (R23) -/
  pc : Word
  /-- the address of the instruction this step executes (R24) -/
  xpc : Word
  /-- N, V, Z, C (R27) -/
  flags : Flags
  /-- the next instruction is skipped (R30) -/
  skip : Bool
  /-- instruction memory (20_memory.md R50); unused when `UNIFIED_MEMORY` is true -/
  imem : Memory
  /-- data memory (R51); the one storage when `UNIFIED_MEMORY` is true (R66) -/
  dmem : Memory
  /-- the old word the fetch of `xpc` had already read when a store raced with it (R24, R66; log 14) -/
  prefetch : Option Word
  /-- input: the instruction interface of the bus becomes ready (R62; log 13) -/
  ibusReady : Bool
  /-- input: the data interface of the bus becomes ready (R62; log 13) -/
  dbusReady : Bool
  /-- output: the transfers made with devices, oldest first (R57, R58, R60; log 12) -/
  io : List IoEvent
  /-- the model's own: the number of the next free value (R28; log 4) -/
  draws : Nat
  /-- the parameters of 00_scope.md R6, which no step changes (log 10) -/
  cfg : Config
  deriving DecidableEq, Repr

/-- The model faults of 60_exceptions.md R201: the run stops, nothing is saved, control goes nowhere. Each is safe: the
model stops where the hardware does something the spec does not give (D18). `xpc` is the address of the instruction.
`NoValueRead` of the spec's list is missing: every register holds a value (log 28). -/
inductive Fault where
  /-- any executed word whose bits 4:0 are an unassigned opcode; safe (30_encoding.md R94, D8) -/
  | illegalInstruction (w xpc : Word)
  /-- any executed word with an unused bit 1, only with `STRICT_X_BITS` = true; safe (R93, D9) -/
  | reservedBits (w xpc : Word)
  /-- IFS with a code no condition belongs to; safe (R97, D7) -/
  | reservedCondition (code : BitVec 4) (xpc : Word)
  /-- IFS on an undefined flag, only with `UNDEF_FLAG_READ` = fault; safe (46_conditional.md R183, D23) -/
  | undefinedFlagRead (code : BitVec 4) (xpc : Word)
  /-- LSLI with field 0, only with `LSLI_ZERO` = refuse; `w` is the word fetched; safe (42_shift.md R141, D12) -/
  | unspecifiedShift (w xpc : Word)
  /-- LD or ST at an odd address; safe (20_memory.md R55, D13) -/
  | misalignedData (ea xpc : Word)
  /-- LD or ST where the platform has neither memory nor device; safe (R57, R58, D26) -/
  | dataUnmapped (ea xpc : Word)
  /-- BR, BSR, RET to an odd address, or a fetch at one; safe (R55, 45_branch.md R171, R174, D14) -/
  | misalignedFetch (t xpc : Word)
  /-- the fetch where the platform has no instruction memory; safe (20_memory.md R56, D26) -/
  | fetchUnmapped (a : Word)
  /-- BR, BSR or RET in a delay slot, only with `ALLOW_BRANCH_IN_SLOT` = refuse; safe (45_branch.md R175, D22) -/
  | branchInDelaySlot (xpc pc : Word)
  deriving DecidableEq, Repr

/-- Refusals. There is only the host's: it stands for an arm of exec without a meaning, and no arm is left without one. -/
inductive Refusal where
  /-- raised by exec's arm of an instruction that is not modelled yet; safe -/
  | notModelled (mnemonic : String)
  deriving DecidableEq, Repr

/-- What a bus transfer comes to: a result; a wait that never ends, the bus not becoming ready (20_memory.md R62); or a
model fault (R56 to R58). -/
inductive Access (α : Type) where
  | done (x : α)
  | wait
  | bad (f : Fault)
  deriving DecidableEq, Repr

/-- The state after reset with the parameters `c` (10_state.md R34, 70_reset_and_hazards.md R240). The registers' zeros are
the model's choice (log 2), as are the draw numbers of the four undefined flags (log 4). -/
def State.resetWith (c : Config) : State where
  regs := Vector.replicate 16 0
  pc := c.pcAdd c.resetPc 2
  xpc := c.resetPc
  flags := ⟨.undef 0, .undef 1, .undef 2, .undef 3⟩
  skip := false
  imem := []
  dmem := []
  prefetch := none
  ibusReady := true
  dbusReady := true
  io := []
  draws := 4
  cfg := c

/-- The state after reset. -/
def State.reset : State := State.resetWith Config.running

end Sys2Proof.Machine
end

