-- ==== Sys2Proof/Machine/Ops.lean ====
section
/-! DEFINITION. The named operations over memory, registers, the bus and the pc that the meanings are written with
(00_scope.md R9, 10_state.md R25, 20_memory.md R56 to R58). The N-105 takes no exception and returns from none
(60_exceptions.md R200, R204, R205), so there is no operation for either. -/

namespace Sys2Proof.Machine

open Sys2Proof

/-! ### Memory -/

/-- What an address nothing is listed for reads as, in both memories: no value has been put there (10_state.md R34; log 8). -/
def Memory.unlisted : Option Byte := none

/-- The byte put at an address by a store or by the image, if there was one. -/
def Memory.read : Memory → Nat → Option Byte
  | [], _ => Memory.unlisted
  | (k, b) :: m, a => if k = a then some b else Memory.read m a

/-- Write one byte, keeping the canonical form. No byte is what an unlisted address reads as, so no write removes an entry. -/
def Memory.write : Memory → Nat → Byte → Memory
  | [], a, v => [(a, v)]
  | (k, b) :: m, a, v =>
    if a < k then (a, v) :: (k, b) :: m
    else if a = k then (a, v) :: m
    else (k, b) :: Memory.write m a v

/-- The canonical form: addresses strictly rising and inside the 16-bit space. No entry can equal `Memory.unlisted`. -/
abbrev Memory.wf (m : Memory) : Prop :=
  m.Pairwise (fun x y => x.1 < y.1) ∧ ∀ e ∈ m, e.1 < 65536

/-- The byte a transfer sees: the one put there, else the free launch value of that storage (20_memory.md R57: "or the launch
value if there was none"; log 8). -/
def Memory.byte (k : Storage) (m : Memory) (a : Nat) : Byte := (Memory.read m a).getD (Config.launchByte k a)

/-- The half word at the even address `a` (20_memory.md R54, R59). -/
def Memory.readHalf (k : Storage) (o : ByteOrder) (m : Memory) (a : Word) : Word :=
  joinBytes o (Memory.byte k m a.toNat) (Memory.byte k m (a.toNat + 1))

/-- Write all 16 bits of the half word at the even address `a`, no other byte (R58, R59). -/
def Memory.writeHalf (o : ByteOrder) (m : Memory) (a v : Word) : Memory :=
  Memory.write (Memory.write m a.toNat (firstByte o v)) (a.toNat + 1) (secondByte o v)

/-- An address is odd: not half word aligned (R55). -/
def isOdd (a : Word) : Bool := a[0]

/-- An address lies in one of the regions: `imem_admits`, `dmem_admits`, `io_region` (00_scope.md R6). -/
def admits (rs : List Region) (a : Word) : Bool :=
  rs.any fun r => decide (r.lo ≤ a.toNat) && decide (a.toNat ≤ r.hi)

/-! ### Registers, flags, pc -/

/-- x[i] (R9). No register is hard-wired (10_state.md R21). -/
def State.reg (s : State) (i : Reg) : Word := s.regs[i]

/-- x[i] <- v (R9). -/
def State.setReg (s : State) (i : Reg) (v : Word) : State := { s with regs := s.regs.set i v }

/-- Write the four flags. -/
def State.setFlags (s : State) (f : Flags) : State := { s with flags := f }

/-- Use up `k` free values. -/
def State.useDraws (s : State) (k : Nat) : State := { s with draws := s.draws + k }

/-- The end of a step whose instruction left npc alone (10_state.md R25): the instruction being fetched executes next. -/
def State.advance (s : State) : State := { s with xpc := s.pc, pc := s.cfg.pcAdd s.pc 2, prefetch := none }

/-- The end of a step whose instruction set npc (R25, 45_branch.md R170): the delay slot executes next, then the target. -/
def State.jump (s : State) (npc : Word) : State := { s with xpc := s.pc, pc := npc, prefetch := none }

/-- A skipped instruction: it takes its step and has no other effect (10_state.md R30, 46_conditional.md R182). -/
def State.skipOver (s : State) : State := { s.advance with skip := false }

/-! ### The bus -/

/-- The storage the instruction interface reads: instruction memory, or the one storage when `UNIFIED_MEMORY` is true
(20_memory.md R50, R51, R66). -/
def State.fetchStore (s : State) : Memory := if s.cfg.unifiedMemory then s.dmem else s.imem

/-- Which of the two storages that is. -/
def State.fetchStorage (s : State) : Storage := if s.cfg.unifiedMemory then .data else .instruction

/-- `IFetch(xpc)` (R56). The word is the one the fetch had already read, where a store raced with it (R66, log 14). -/
def State.fetch (s : State) : Access Word :=
  if isOdd s.xpc then .bad (.misalignedFetch s.xpc s.xpc)
  else if !s.ibusReady then .wait
  else if admits s.cfg.imemRegions s.xpc then
    .done (s.prefetch.getD (Memory.readHalf s.fetchStorage s.cfg.byteOrder s.fetchStore s.xpc))
  else .bad (.fetchUnmapped s.xpc)

/-- The word of the instruction being executed, `w` of the step (10_state.md R25). In a step it is the word fetched; for an
`exec` of `i` where nothing can be fetched, which no step makes, it is the word of `i` (log 27). -/
def State.executedWord (s : State) (i : Instr) : Word :=
  match s.fetch with
  | .done w => w
  | _ => encode s.cfg i

/-- `MemRead(ea, 2)` (R57): the half word and the state after the transfer. A device answers with a free value (log 12). -/
def State.memRead (s : State) (ea : Word) : Access (Word × State) :=
  if isOdd ea then .bad (.misalignedData ea s.xpc)
  else if !s.dbusReady then .wait
  else if admits s.cfg.ioRegions ea then
    .done (Config.oracle s.draws ea, { s.useDraws 1 with io := s.io ++ [.read ea] })
  else if admits s.cfg.dmemRegions ea then .done (Memory.readHalf .data s.cfg.byteOrder s.dmem ea, s)
  else .bad (.dataUnmapped ea s.xpc)

/-- `MemWrite(ea, 2, v)` (R58): the state after the transfer. -/
def State.memWrite (s : State) (ea v : Word) : Access State :=
  if isOdd ea then .bad (.misalignedData ea s.xpc)
  else if !s.dbusReady then .wait
  else if admits s.cfg.ioRegions ea then .done { s with io := s.io ++ [.write ea v] }
  else if admits s.cfg.dmemRegions ea then
    .done { s with dmem := Memory.writeHalf s.cfg.byteOrder s.dmem ea v }
  else .bad (.dataUnmapped ea s.xpc)

/-- A store to `ea` races with the fetch of the word at `pc`: one storage, that very address, memory and not a device
(R66). -/
def State.storeRaces (s : State) (ea : Word) : Bool :=
  s.cfg.unifiedMemory && ea == s.pc && admits s.cfg.imemRegions ea && !admits s.cfg.ioRegions ea

/-- The end of ST's step: `s` is the state before the store, `t` the state after it. In a race the word fetched is the old
or the new one, by a free choice (R66: "models the race as both outcomes"; log 14). -/
def State.advanceAfterStore (s t : State) (ea : Word) : State :=
  if s.storeRaces ea then
    { t.advance with
      prefetch :=
        if Config.fetchSawOld s.draws then some (Memory.readHalf .data s.cfg.byteOrder s.dmem s.pc) else none
      draws := s.draws + 1 }
  else t.advance

end Sys2Proof.Machine
end

