-- ==== Sys2Proof/Machine/Operands.lean ====
section
/-! DEFINITION. The operand forms: immediates extended and scaled (30_encoding.md R85 to R88), shift results
(42_shift.md), branch targets (45_branch.md). -/

namespace Sys2Proof.Machine

open Sys2Proof

/-- `sext_7`: MOVI and CMPI (30_encoding.md R86). -/
def sext7 (imm7 : BitVec 7) : Word := imm7.signExtend 16

/-- `zext_7`: ADDI and SUBI (R86). -/
def zext7 (imm7 : BitVec 7) : Word := imm7.setWidth 16

/-- `sext_11(imm11) * BRANCH_SCALE` (R87). -/
def branchOffset (scale : BranchScale) (imm11 : BitVec 11) : Word :=
  match scale with
  | .one => imm11.signExtend 16
  | .two => imm11.signExtend 16 * 2

/-- The result of LSLI: a left shift by 16 minus the field (42_shift.md R141). Field 0 is `LSLI_ZERO`; `none` refuses it,
`either` is one of the two readings of the manual (log 6). -/
def lsliResult (z : LsliZero) (v : Word) (imm4 : BitVec 4) : Option Word :=
  if imm4 ≠ 0 then some (v <<< (16 - imm4.toNat))
  else match z with
    | .identity => some v
    | .zero => some 0
    | .either => some (if Config.lsliZeroClears then 0 else v)
    | .refuse => none

/-- The result of LSRI, `>>u` (R142). -/
def lsriResult (v : Word) (imm4 : BitVec 4) : Word := v >>> imm4.toNat

/-- The result of ASRI, `>>s` (R143). -/
def asriResult (v : Word) (imm4 : BitVec 4) : Word := v.sshiftRight imm4.toNat

/-- The result of ROTI, a rotation to the right (R144). -/
def rotiResult (v : Word) (imm4 : BitVec 4) : Word :=
  if imm4 = 0 then v else v >>> imm4.toNat ||| v <<< (16 - imm4.toNat)

end Sys2Proof.Machine
end

