-- ==== Sys2Proof/Machine/Branch.lean ====
section
/-! DEFINITION. Control transfer (45_branch.md R170 to R175): a branch is a write of npc; the delay slot executes before the
target. -/

namespace Sys2Proof.Machine

open Sys2Proof

/-- The instruction at xpc is in the delay slot of a branch (R175). -/
def State.inSlot (s : State) : Bool := s.pc != s.cfg.pcAdd s.xpc 2

/-- npc <- t for BR, BSR and RET: `BranchInDelaySlot` first, then the target's alignment (60_exceptions.md R202), then the
step's end on `s'`, the state with the instruction's register write. -/
def branchTo (t : Word) (s' s : State) : Host.Outcome State Fault Refusal :=
  if s.cfg.branchInSlot = .refuse ∧ s.inSlot then .fault (.branchInDelaySlot s.xpc s.pc)
  else if isOdd t then .fault (.misalignedFetch t s.xpc)
  else .next (s'.jump t)

/-- BR: relative to the delay slot (R171). -/
def execBr (imm11 : BitVec 11) (s : State) : Host.Outcome State Fault Refusal :=
  branchTo (s.cfg.pcAdd s.pc (branchOffset s.cfg.branchScale imm11)) s s

/-- BSR: r15 gets the address after the delay slot (R172). -/
def execBsr (imm11 : BitVec 11) (s : State) : Host.Outcome State Fault Refusal :=
  branchTo (s.cfg.pcAdd s.pc (branchOffset s.cfg.branchScale imm11)) (s.setReg linkReg (s.cfg.pcAdd s.pc 2)) s

/-- RET (R173, R174). -/
def execRet (s : State) : Host.Outcome State Fault Refusal :=
  branchTo (s.reg linkReg) s s

end Sys2Proof.Machine
end

