-- ==== Sys2Proof/Machine/Flags.lean ====
section
/-! DEFINITION. The condition flags: what sets them (10_state.md R27 to R29, 41_move_arith.md R131, R132) and what
reads them (30_encoding.md R96, R97, 46_conditional.md R183). -/

namespace Sys2Proof.Machine

open Sys2Proof

/-! ### Setting -/

/-- N of a result: bit 15 (10_state.md R27). -/
def nOf (r : Word) : Flag := .known r[15]

/-- Z of a result (R27). -/
def zOf (r : Word) : Flag := .known (r == 0)

/-- OR, AND, XOR and `nop`: N and Z set, V and C left undefined (40_logic.md R120). `k` numbers the draw of V, `k + 1` that
of C. -/
def logicFlags (r : Word) (k : Nat) : Flags := ⟨nOf r, .undef k, zOf r, .undef (k + 1)⟩

/-- `AddFlags(a, b)` (41_move_arith.md R131): C is bit 16 of the 17-bit sum. -/
def addFlags (a b : Word) : Flags :=
  let t : BitVec 17 := a.setWidth 17 + b.setWidth 17
  let r : Word := t.setWidth 16
  ⟨nOf r, .known (a[15] == b[15] && r[15] != a[15]), zOf r, .known t[16]⟩

/-- `SubFlags(a, b)` (R132): C is the borrow, or with `SUB_CARRY_IS_BORROW` = false its complement (D10). -/
def subFlags (carryIsBorrow : Bool) (a b : Word) : Flags :=
  let r : Word := a - b
  let borrow : Bool := decide (a.toNat < b.toNat)
  ⟨nOf r, .known (a[15] != b[15] && r[15] != a[15]), zOf r,
    .known (if carryIsBorrow then borrow else !borrow)⟩

/-! ### Reading -/

/-- The value of a flag; an undefined flag has the free value of its draw (log 4). -/
def Flag.value : Flag → Bool
  | .known b => b
  | .undef k => Config.freeFlag k

/-- The flag is undefined. -/
def Flag.isUndef : Flag → Bool
  | .known _ => false
  | .undef _ => true

/-- `cond(code)` (30_encoding.md R96, R97): codes 0x0 to 0x7 are the manual's, the others are `CC_HIGH`. -/
def condOf (c : Config) (code : BitVec 4) : Option Cond :=
  match code.toNat with
  | 0x0 => some .cc
  | 0x1 => some .cs
  | 0x2 => some .ne
  | 0x3 => some .eq
  | 0x4 => some .pl
  | 0x5 => some .mi
  | 0x6 => some .lt
  | 0x7 => some .ge
  | n => (c.ccHigh[n - 8]?).join

/-- The condition as a function of the flags' values (R96). -/
def condEval (k : Cond) (n v z c : Bool) : Bool :=
  match k with
  | .cc => !c
  | .cs => c
  | .ne => !z
  | .eq => z
  | .pl => !n
  | .mi => n
  | .lt => n ^^ v
  | .ge => !(n ^^ v)
  | .gt => !(z || (n ^^ v))
  | .le => z || (n ^^ v)
  | .vc => !v
  | .vs => v
  | .hi => !(c || z)
  | .la => c || z

/-- A flag the condition names is undefined (46_conditional.md R183). -/
def condReadsUndef (k : Cond) (f : Flags) : Bool :=
  match k with
  | .cc => f.c.isUndef
  | .cs => f.c.isUndef
  | .ne => f.z.isUndef
  | .eq => f.z.isUndef
  | .pl => f.n.isUndef
  | .mi => f.n.isUndef
  | .lt => f.n.isUndef || f.v.isUndef
  | .ge => f.n.isUndef || f.v.isUndef
  | .gt => f.z.isUndef || f.n.isUndef || f.v.isUndef
  | .le => f.z.isUndef || f.n.isUndef || f.v.isUndef
  | .vc => f.v.isUndef
  | .vs => f.v.isUndef
  | .hi => f.c.isUndef || f.z.isUndef
  | .la => f.c.isUndef || f.z.isUndef

/-- Whether the condition holds; `none` where R183 has the IFS fault: a flag it names is undefined, even if the others
would decide. With `UNDEF_FLAG_READ` = free the undefined flag's free value is read instead (log 5). -/
def condHolds (m : UndefFlagRead) (k : Cond) (f : Flags) : Option Bool :=
  if m = .fault ∧ condReadsUndef k f then none
  else some (condEval k f.n.value f.v.value f.z.value f.c.value)

end Sys2Proof.Machine
end

