-- ==== Sys2Proof/Machine/Conditional.lean ====
section
/-! DEFINITION. Conditional execution (46_conditional.md R180 to R183). -/

namespace Sys2Proof.Machine

open Sys2Proof

/-- IFS: skip <- !condition. `ReservedCondition` is found before `UndefinedFlagRead` (60_exceptions.md R202). -/
def execIfs (code : BitVec 4) (s : State) : Host.Outcome State Fault Refusal :=
  match condOf s.cfg code with
  | none => .fault (.reservedCondition code s.xpc)
  | some k =>
    match condHolds s.cfg.undefFlagRead k s.flags with
    | none => .fault (.undefinedFlagRead code s.xpc)
    | some b => .next { s.advance with skip := !b }

end Sys2Proof.Machine
end

