-- ==== Sys2Proof/Machine/MoveArith.lean ====
section
/-! DEFINITION. Move and register arithmetic (41_move_arith.md R130 to R136), and the operations the immediate forms share
with it. -/

namespace Sys2Proof.Machine

open Sys2Proof

/-- A result to x[A], no flag written. -/
def moveOp (a : Reg) (v : Word) (s : State) : Host.Outcome State Fault Refusal :=
  .next (s.setReg a v).advance

/-- x[A] + y to x[A], the four flags set (R131). -/
def addOp (a : Reg) (y : Word) (s : State) : Host.Outcome State Fault Refusal :=
  .next ((s.setReg a (s.reg a + y)).setFlags (addFlags (s.reg a) y)).advance

/-- x[A] - y to x[A], the four flags set (R132). -/
def subOp (a : Reg) (y : Word) (s : State) : Host.Outcome State Fault Refusal :=
  .next ((s.setReg a (s.reg a - y)).setFlags (subFlags s.cfg.subCarryIsBorrow (s.reg a) y)).advance

/-- The flags of x[A] - y, no register written (R136). -/
def cmpOp (a : Reg) (y : Word) (s : State) : Host.Outcome State Fault Refusal :=
  .next (s.setFlags (subFlags s.cfg.subCarryIsBorrow (s.reg a) y)).advance

/-- MOV (R133). -/
def execMov (a b : Reg) (s : State) : Host.Outcome State Fault Refusal := moveOp a (s.reg b) s

/-- ADD (R134). -/
def execAdd (a b : Reg) (s : State) : Host.Outcome State Fault Refusal := addOp a (s.reg b) s

/-- SUB (R135). -/
def execSub (a b : Reg) (s : State) : Host.Outcome State Fault Refusal := subOp a (s.reg b) s

/-- CMP (R136). -/
def execCmp (a b : Reg) (s : State) : Host.Outcome State Fault Refusal := cmpOp a (s.reg b) s

end Sys2Proof.Machine
end

