-- ==== Sys2Proof/Machine/Immediate.lean ====
section
/-! DEFINITION. The immediate instructions (43_immediate.md R150 to R154): MOVI and CMPI sign-extend, ADDI and SUBI
zero-extend. -/

namespace Sys2Proof.Machine

open Sys2Proof

/-- MOVI (R151). -/
def execMovi (a : Reg) (imm7 : BitVec 7) (s : State) : Host.Outcome State Fault Refusal :=
  moveOp a (sext7 imm7) s

/-- ADDI (R152). -/
def execAddi (a : Reg) (imm7 : BitVec 7) (s : State) : Host.Outcome State Fault Refusal :=
  addOp a (zext7 imm7) s

/-- SUBI (R153). -/
def execSubi (a : Reg) (imm7 : BitVec 7) (s : State) : Host.Outcome State Fault Refusal :=
  subOp a (zext7 imm7) s

/-- CMPI (R154). -/
def execCmpi (a : Reg) (imm7 : BitVec 7) (s : State) : Host.Outcome State Fault Refusal :=
  cmpOp a (sext7 imm7) s

end Sys2Proof.Machine
end

