-- ==== Sys2Proof/Machine/LoadStore.lean ====
section
/-! DEFINITION. Load and store (44_load_store.md R160 to R162): register indirect, one half word, no flag written. Where the
data bus never becomes ready the core waits and the state stays as it is (20_memory.md R62, log 13). -/

namespace Sys2Proof.Machine

open Sys2Proof

/-- LD: the address is read before x[A] is replaced (R161). -/
def execLd (a b : Reg) (s : State) : Host.Outcome State Fault Refusal :=
  match s.memRead (s.reg b) with
  | .done (v, t) => .next (t.setReg a v).advance
  | .wait => .next s
  | .bad f => .fault f

/-- ST: x[A] to the address in x[B] (R162). -/
def execSt (a b : Reg) (s : State) : Host.Outcome State Fault Refusal :=
  match s.memWrite (s.reg b) (s.reg a) with
  | .done t => .next (s.advanceAfterStore t (s.reg b))
  | .wait => .next s
  | .bad f => .fault f

end Sys2Proof.Machine
end

