-- ==== Sys2Proof/Machine/Logic.lean ====
section
/-! DEFINITION. The logic instructions (40_logic.md R120 to R125). -/

namespace Sys2Proof.Machine

open Sys2Proof

/-- OR, AND, XOR: the result to x[A], N and Z from it, V and C undefined (R120). -/
def logicOp (a : Reg) (r : Word) (s : State) : Host.Outcome State Fault Refusal :=
  .next (((s.setReg a r).setFlags (logicFlags r s.draws)).useDraws 2).advance

/-- OR (R121). -/
def execOr (a b : Reg) (s : State) : Host.Outcome State Fault Refusal :=
  logicOp a (s.reg a ||| s.reg b) s

/-- AND (R122). -/
def execAnd (a b : Reg) (s : State) : Host.Outcome State Fault Refusal :=
  logicOp a (s.reg a &&& s.reg b) s

/-- XOR (R123). -/
def execXor (a b : Reg) (s : State) : Host.Outcome State Fault Refusal :=
  logicOp a (s.reg a ^^^ s.reg b) s

/-- NOT: no flag is written (R124). -/
def execNot (a : Reg) (s : State) : Host.Outcome State Fault Refusal :=
  .next (s.setReg a (~~~ s.reg a)).advance

/-- NOP is `or r0 r0`, flags included (R125, R101). -/
def execNop (s : State) : Host.Outcome State Fault Refusal :=
  logicOp 0 (s.reg 0 ||| s.reg 0) s

end Sys2Proof.Machine
end

