-- ==== Sys2Proof/Machine/Shift.lean ====
section
/-! DEFINITION. Shifts and rotate (42_shift.md R140 to R144): no flag is written. -/

namespace Sys2Proof.Machine

open Sys2Proof

/-- LSLI (R141). Field 0 with `LSLI_ZERO` = refuse is the model fault `UnspecifiedShift` of the word fetched. -/
def execLsli (a : Reg) (imm4 : BitVec 4) (s : State) : Host.Outcome State Fault Refusal :=
  match lsliResult s.cfg.lsliZero (s.reg a) imm4 with
  | some r => moveOp a r s
  | none => .fault (.unspecifiedShift (s.executedWord (.lsli a imm4)) s.xpc)

/-- LSRI (R142). -/
def execLsri (a : Reg) (imm4 : BitVec 4) (s : State) : Host.Outcome State Fault Refusal :=
  moveOp a (lsriResult (s.reg a) imm4) s

/-- ASRI (R143). -/
def execAsri (a : Reg) (imm4 : BitVec 4) (s : State) : Host.Outcome State Fault Refusal :=
  moveOp a (asriResult (s.reg a) imm4) s

/-- ROTI (R144). -/
def execRoti (a : Reg) (imm4 : BitVec 4) (s : State) : Host.Outcome State Fault Refusal :=
  moveOp a (rotiResult (s.reg a) imm4) s

end Sys2Proof.Machine
end

