-- ==== Sys2Proof/Machine/Dispatch.lean ====
section
/-! DEFINITION. The meaning of every instruction, one arm each (30_encoding.md R90). -/

namespace Sys2Proof.Machine

def exec (i : Instr) (s : State) : Host.Outcome State Fault Refusal :=
  match i with
  -- logic
  | .or a b => Sys2Proof.Machine.execOr a b s
  | .and a b => Sys2Proof.Machine.execAnd a b s
  | .xor a b => Sys2Proof.Machine.execXor a b s
  | .not a => Sys2Proof.Machine.execNot a s
  | .nop => Sys2Proof.Machine.execNop s
  -- move and register arithmetic
  | .mov a b => Sys2Proof.Machine.execMov a b s
  | .add a b => Sys2Proof.Machine.execAdd a b s
  | .sub a b => Sys2Proof.Machine.execSub a b s
  | .cmp a b => Sys2Proof.Machine.execCmp a b s
  -- shift and rotate
  | .lsli a n => Sys2Proof.Machine.execLsli a n s
  | .lsri a n => Sys2Proof.Machine.execLsri a n s
  | .asri a n => Sys2Proof.Machine.execAsri a n s
  | .roti a n => Sys2Proof.Machine.execRoti a n s
  -- immediate
  | .movi a n => Sys2Proof.Machine.execMovi a n s
  | .addi a n => Sys2Proof.Machine.execAddi a n s
  | .subi a n => Sys2Proof.Machine.execSubi a n s
  | .cmpi a n => Sys2Proof.Machine.execCmpi a n s
  -- load and store
  | .ld a b => Sys2Proof.Machine.execLd a b s
  | .st a b => Sys2Proof.Machine.execSt a b s
  -- control transfer
  | .br n => Sys2Proof.Machine.execBr n s
  | .bsr n => Sys2Proof.Machine.execBsr n s
  | .ret => Sys2Proof.Machine.execRet s
  -- conditional execution
  | .ifs c => Sys2Proof.Machine.execIfs c s

end Sys2Proof.Machine
end

