-- ==== Sys2Proof/Machine/Fetch.lean ====
section
/-! DEFINITION. What Step.lean calls around exec: the fault of a word that is no instruction, and putting a word where the
next fetch reads. -/

namespace Sys2Proof.Machine

open Sys2Proof

/-- The model fault of a word the decoder refuses (60_exceptions.md R201). `truncated` cannot arise from a whole word. -/
def decodeFault (e : DecodeError) (xpc : Word) : Fault :=
  match e with
  | .illegalInstruction w => .illegalInstruction w xpc
  | .reservedBits w => .reservedBits w xpc
  | .truncated => .fetchUnmapped xpc

/-- `s` with the half word `w` where the fetch of `xpc` reads, and about to be executed: not skipped, not overridden by a
word already fetched, the instruction bus ready. -/
def State.placeWord (s : State) (w : Word) : State :=
  let s' := { s with skip := false, prefetch := none, ibusReady := true }
  if s.cfg.unifiedMemory then { s' with dmem := Memory.writeHalf s.cfg.byteOrder s.dmem s.xpc w }
  else { s' with imem := Memory.writeHalf s.cfg.byteOrder s.imem s.xpc w }

end Sys2Proof.Machine
end

