-- ==== Sys2Proof/Machine/Step.lean ====
section
/-! DEFINITION. One step of the core (10_state.md R25), with the checks in the order of 60_exceptions.md R202. -/

namespace Sys2Proof.Machine

open Sys2Proof

/-- Fetch the word at xpc; skip it undecoded if `skip` is set (R30), else decode and execute it. While the instruction bus
does not become ready the core waits: the state stays as it is (20_memory.md R62, log 13). -/
def step (s : State) : Host.Outcome State Fault Refusal :=
  match s.fetch with
  | .wait => .next s
  | .bad f => .fault f
  | .done w =>
    if s.skip then .next s.skipOver
    else
      match decode s.cfg w with
      | .error e => .fault (decodeFault e s.xpc)
      | .ok i => exec i s

/-- `s` with the instruction of the low `nbits` bits of `w` (bit 0 the least significant of its one word) stored where
`step` fetches its next instruction, and not skipped. -/
def State.withFetchWord (s : State) (nbits w : Nat) : State :=
  s.placeWord (BitVec.ofNat 16 (w % 2 ^ nbits))

end Sys2Proof.Machine
end

