-- ==== Sys2Proof/Machine/Assembler.lean ====
section
/-! DEFINITION. The assembler's side of the manual (30_encoding.md R88, R96, R98 to R101): a line is a mnemonic and its
operands, the destination first; labels are addresses by then. No step of the machine uses this file. -/

namespace Sys2Proof.Machine

open Sys2Proof

/-- An operand as written: a register `r0` to `r15`, a decimal number (a label is its address), or a condition symbol. -/
inductive AsmOperand where
  | reg (r : Reg)
  | num (n : Int)
  | sym (s : String)
  deriving DecidableEq, Repr

/-- The symbols of a condition, each with the prefix `cc_` (R96, R99, D27). -/
def condSymbols : Cond → List String
  | .cc => ["cc_cc", "cc_nc"]
  | .cs => ["cc_cs", "cc_c"]
  | .ne => ["cc_ne", "cc_nz"]
  | .eq => ["cc_eq", "cc_z"]
  | .pl => ["cc_pl", "cc_p"]
  | .mi => ["cc_mi", "cc_n"]
  | .lt => ["cc_lt"]
  | .ge => ["cc_ge"]
  | .gt => ["cc_gt"]
  | .le => ["cc_le"]
  | .vc => ["cc_vc", "cc_nv"]
  | .vs => ["cc_vs", "cc_v"]
  | .hi => ["cc_hi"]
  | .la => ["cc_la"]

/-- The sixteen condition codes in order. -/
def allCodes : List (BitVec 4) := (List.range 16).map (BitVec.ofNat 4)

/-- The code a symbol assembles to: the first whose condition has that symbol. -/
def codeOfSymbol (c : Config) (sym : String) : Option (BitVec 4) :=
  allCodes.find? fun code =>
    match condOf c code with
    | some k => (condSymbols k).contains sym
    | none => false

/-- The field of LSLI for a written distance n, 0 to 15: the bottom four bits of 16 - n (R88). -/
def lsliField (n : Nat) : BitVec 4 := BitVec.ofNat 4 (16 - n)

/-- imm11 of a branch at `x` to `addr`: (addr - (x + 2)) / `BRANCH_SCALE`, an integer in -1024 to 1023, and even with scale 1
(R100). -/
def branchField (scale : BranchScale) (x addr : Word) : Option (BitVec 11) :=
  let d : Int := (addr - (x + 2)).toInt
  let q : Int := match scale with
    | .one => d
    | .two => d / 2
  if d % 2 = 0 ∧ -1024 ≤ q ∧ q ≤ 1023 then some (BitVec.ofInt 11 q) else none

/-- A number of the range lo to hi as a field of w bits (R86). -/
def numField (w : Nat) (lo hi n : Int) : Option (BitVec w) :=
  if lo ≤ n ∧ n ≤ hi then some (BitVec.ofInt w n) else none

/-- One line at address `x` (R98 to R101), or `none` where the manual shows no such line. DESIGN CHOICE where the manual is
silent on an operand (log 29): the written distance of LSLI is 0 to 15, so `lsli rA 16` gives no instruction although R88's
formula would store field 0; the address of BR and BSR is taken modulo 2^16; any other number must fit its field. -/
def assemble (c : Config) (x : Word) (mnemonic : String) (operands : List AsmOperand) : Option Instr :=
  match mnemonic, operands with
  | "or", [.reg a, .reg b] => some (if a = 0 ∧ b = 0 then .nop else .or a b)
  | "and", [.reg a, .reg b] => some (.and a b)
  | "xor", [.reg a, .reg b] => some (.xor a b)
  | "not", [.reg a] => some (.not a)
  | "nop", [] => some .nop
  | "mov", [.reg a, .reg b] => some (.mov a b)
  | "add", [.reg a, .reg b] => some (.add a b)
  | "sub", [.reg a, .reg b] => some (.sub a b)
  | "cmp", [.reg a, .reg b] => some (.cmp a b)
  | "lsli", [.reg a, .num n] => if 0 ≤ n ∧ n ≤ 15 then some (.lsli a (lsliField n.toNat)) else none
  | "lsri", [.reg a, .num n] => (numField 4 0 15 n).map (.lsri a)
  | "asri", [.reg a, .num n] => (numField 4 0 15 n).map (.asri a)
  | "roti", [.reg a, .num n] => (numField 4 0 15 n).map (.roti a)
  | "movi", [.reg a, .num n] => (numField 7 (-64) 63 n).map (.movi a)
  | "addi", [.reg a, .num n] => (numField 7 0 127 n).map (.addi a)
  | "subi", [.reg a, .num n] => (numField 7 0 127 n).map (.subi a)
  | "cmpi", [.reg a, .num n] => (numField 7 (-64) 63 n).map (.cmpi a)
  | "ld", [.reg a, .reg b] => some (.ld a b)
  | "st", [.reg a, .reg b] => some (.st a b)
  | "br", [.num n] => (branchField c.branchScale x (BitVec.ofInt 16 n)).map .br
  | "bsr", [.num n] => (branchField c.branchScale x (BitVec.ofInt 16 n)).map .bsr
  | "ret", [] => some .ret
  | "ifs", [.sym s] => (codeOfSymbol c s).map .ifs
  | _, _ => none

end Sys2Proof.Machine
end

