-- ==== Sys2Proof/Safety.lean ====
section
/-! DEFINITION. The terms the claims use: the invariant, the end of a run, frames, the groups of instructions, the
arithmetic meaning of the flags. -/

namespace Sys2Proof.Machine

open Sys2Proof

/-! ### The invariant -/

/-- The flag's draw, if it is undefined, is one of the first `d`. -/
def Flag.below (d : Nat) : Flag → Bool
  | .known _ => true
  | .undef k => decide (k < d)

/-- The invariant of every run: both memories canonical (log 8, log 9), pc and xpc even (10_state.md R26), the draws of undefined
flags used up (log 4), a word fetched early only where storage is shared (20_memory.md R66). -/
abbrev State.Inv (s : State) : Prop :=
  Memory.wf s.imem ∧ Memory.wf s.dmem ∧ isOdd s.pc = false ∧ isOdd s.xpc = false
    ∧ (Flag.below s.draws s.flags.n && Flag.below s.draws s.flags.v
        && Flag.below s.draws s.flags.z && Flag.below s.draws s.flags.c) = true
    ∧ (s.cfg.unifiedMemory = false → s.prefetch = none)

/-! ### The end of a run (60_exceptions.md R208, log 24) -/

/-- The run is over: xpc is `HALT_PC`, not skipped, not in a delay slot. `step` itself goes on, as the hardware does. -/
def State.halted (s : State) : Bool :=
  match s.cfg.haltPc with
  | none => false
  | some h => s.xpc == h && !s.skip && s.pc == s.cfg.pcAdd h 2

/-- At most `k` steps, stopping where the run is over; the instruction at `HALT_PC` is not executed. -/
def runToHalt : Nat → State → Host.Outcome State Fault Refusal
  | 0, s => .next s
  | k + 1, s =>
    if s.halted then .next s
    else match step s with
      | .next t => runToHalt k t
      | .fault f => .fault f
      | .refused r => .refused r

/-- A safe run: `k` steps without a fault or a refusal. -/
def State.runsSafely (k : Nat) (s : State) : Prop := ∃ t, Host.Core.run core k s = .next t

/-! ### Which instruction a step executes -/

/-- The next step of `s` executes `i`: its word is fetched, not skipped, and decodes to `i`. -/
def State.executes (s : State) (i : Instr) : Prop :=
  s.skip = false ∧ ∃ w, s.fetch = .done w ∧ decode s.cfg w = .ok i

/-- BR, BSR, RET: the instructions that write npc (45_branch.md R170). -/
def isBranch : Instr → Bool
  | .br _ => true
  | .bsr _ => true
  | .ret => true
  | _ => false

/-- `t` is the target of the branch `i` executed in `s`: for BR and BSR pc plus the signed field times `BRANCH_SCALE`, modulo
2^16 (45_branch.md R171, R172, 30_encoding.md R87), for RET r15 (R173). -/
def State.Targets (s : State) (i : Instr) (t : Word) : Prop :=
  let relative (n : BitVec 11) : Prop :=
    (t.toNat : Int) = (s.pc.toNat + n.toInt * (match s.cfg.branchScale with | .one => 1 | .two => 2) : Int) % 65536
  match i with
  | .br n => relative n
  | .bsr n => relative n
  | .ret => t = s.reg 15
  | _ => False

/-- LD, ST: the instructions that reach data memory (20_memory.md R53). -/
def isMemory : Instr → Bool
  | .ld _ _ => true
  | .st _ _ => true
  | _ => false

/-- The three rows of the table of 10_state.md R29. -/
inductive FlagGroup where
  | logic | arithmetic | none
  deriving DecidableEq, Repr

/-- The row of R29 an instruction stands in. -/
def flagGroupOf : Instr → FlagGroup
  | .or _ _ => .logic
  | .and _ _ => .logic
  | .xor _ _ => .logic
  | .nop => .logic
  | .add _ _ => .arithmetic
  | .sub _ _ => .arithmetic
  | .cmp _ _ => .arithmetic
  | .addi _ _ => .arithmetic
  | .subi _ _ => .arithmetic
  | .cmpi _ _ => .arithmetic
  | _ => .none

/-- The unassigned opcodes of 30_encoding.md R94; of 0x1A and 0x1B the one that is not RET (R91). -/
def unassignedOpcode (c : Config) (op : Nat) : Bool :=
  [0x11, 0x12, 0x13, 0x15, 0x16, 0x17, 0x1C, 0x1D, 0x1E].contains op
    || (match c.retOpcode with
        | .op11010 => op == 0x1B
        | .op11011 => op == 0x1A)

/-! ### Frames -/

/-- Unchanged from `s` to `t`: every register outside `ds`, every byte of both memories, the parameters, the bus inputs, the
transfers with devices. -/
structure Keeps (ds : List Reg) (s t : State) : Prop where
  regs : ∀ r, r ∉ ds → t.reg r = s.reg r
  imem : ∀ a, Memory.read t.imem a = Memory.read s.imem a
  dmem : ∀ a, Memory.read t.dmem a = Memory.read s.dmem a
  cfg : t.cfg = s.cfg
  ibusReady : t.ibusReady = s.ibusReady
  dbusReady : t.dbusReady = s.dbusReady
  io : t.io = s.io

/-- The step of an instruction that leaves npc and `skip` alone (10_state.md R25). -/
structure Sequential (s t : State) : Prop where
  xpc : t.xpc = s.pc
  pc : t.pc = s.pc + 2
  skip : t.skip = s.skip
  prefetch : t.prefetch = none

/-- What OR, AND, XOR and `nop` do beside their result in x[a] (40_logic.md R120): N and Z from it, V and C undefined, the rest
unchanged. -/
structure LogicEffect (a : Reg) (s t : State) : Prop where
  n : t.flags.n = .known ((t.reg a).getLsbD 15)
  z : t.flags.z = .known (decide ((t.reg a).toNat = 0))
  v : t.flags.v.isUndef = true
  c : t.flags.c.isUndef = true
  keeps : Keeps [a] s t
  sequential : Sequential s t

/-- What an instruction that writes x[a] and no flag does beside its result. -/
structure MoveEffect (a : Reg) (s t : State) : Prop where
  flags : t.flags = s.flags
  draws : t.draws = s.draws
  keeps : Keeps [a] s t
  sequential : Sequential s t

/-- The arithmetic meaning of the flags of x + y (41_move_arith.md R131). -/
structure SumFlags (x y : Word) (f : Flags) : Prop where
  n : f.n = .known (decide (32768 ≤ (x.toNat + y.toNat) % 65536))
  z : f.z = .known (decide ((x.toNat + y.toNat) % 65536 = 0))
  c : f.c = .known (decide (65535 < x.toNat + y.toNat))
  v : f.v = .known (decide (x.toInt + y.toInt < -32768 ∨ 32767 < x.toInt + y.toInt))

/-- The arithmetic meaning of the flags of x - y (R132); `b` is `SUB_CARRY_IS_BORROW`. -/
structure DifferenceFlags (b : Bool) (x y : Word) (f : Flags) : Prop where
  n : f.n = .known (decide (((x.toNat : Int) - y.toNat) % 65536 ≥ 32768))
  z : f.z = .known (decide (x = y))
  c : f.c = .known (decide (x.toNat < y.toNat) == b)
  v : f.v = .known (decide (x.toInt - y.toInt < -32768 ∨ 32767 < x.toInt - y.toInt))

/-- A branch in its delay slot is no obstacle: allowed, or not in a slot (45_branch.md R175). -/
def State.mayBranch (s : State) : Prop :=
  s.cfg.branchInSlot = .allow ∨ s.pc = s.xpc + 2

/-- The line `mnemonic operands` assembles, wherever it stands and whatever the parameters, to `i`, whose word is `w`
(30_encoding.md R82, R98). -/
def AssemblesTo (mnemonic : String) (operands : List AsmOperand) (i : Instr) (w : Nat) : Prop :=
  ∀ (c : Config) (x : Word), assemble c x mnemonic operands = some i ∧ (encode c i).toNat = w

/-- `o` with `f` applied to the next state. -/
def mapNext (f : State → State) (o : Host.Outcome State Fault Refusal) : Host.Outcome State Fault Refusal :=
  match o with
  | .next t => .next (f t)
  | .fault e => .fault e
  | .refused r => .refused r

end Sys2Proof.Machine
end

