-- ==== Sys2Proof/Certificates/Slice0/Obligations.lean ====
section
/-! DEFINITION. The statements for the provers, from the numbered rules of spec/. Unless a docstring says otherwise a
statement holds for every state, reachable or not, and for every choice of the parameters (`s.cfg`). -/

open Sys2Proof Sys2Proof.Machine

/-! ### Decoding and encoding -/

/-- Words written out from the encodings of 40_logic.md to 46_conditional.md, one for every constructor, the manual's example
lines among them (95_test_vectors.md E2, E3); RET's opcode is decision D5 (log 19). -/
def Obligations.ManualExampleWordsDecode : Prop :=
  decode Config.specDefault 0x9200 = .ok (.or 9 2) ∧ decode Config.specDefault 0xE001 = .ok (.and 14 0) ∧
  decode Config.specDefault 0x0602 = .ok (.xor 0 6) ∧ decode Config.specDefault 0x3003 = .ok (.not 3) ∧
  decode Config.specDefault 0x0000 = .ok .nop ∧ decode Config.specDefault 0x8204 = .ok (.mov 8 2) ∧
  decode Config.specDefault 0x4505 = .ok (.add 4 5) ∧ decode Config.specDefault 0x2006 = .ok (.sub 2 0) ∧
  decode Config.specDefault 0x9307 = .ok (.cmp 9 3) ∧ decode Config.specDefault 0xB308 = .ok (.lsli 11 3) ∧
  decode Config.specDefault 0x0509 = .ok (.lsri 0 5) ∧ decode Config.specDefault 0x690A = .ok (.asri 6 9) ∧
  decode Config.specDefault 0x9B0B = .ok (.roti 9 11) ∧ decode Config.specDefault 0xC52C = .ok (.movi 12 41) ∧
  decode Config.specDefault 0x806D = .ok (.addi 8 3) ∧ decode Config.specDefault 0x97EE = .ok (.subi 9 63) ∧
  decode Config.specDefault 0x9D0F = .ok (.cmpi 9 0b1101000) ∧ decode Config.specDefault 0x5610 = .ok (.ld 5 6) ∧
  decode Config.specDefault 0xF814 = .ok (.st 15 8) ∧ decode Config.specDefault 0x00D8 = .ok (.br 6) ∧
  decode Config.specDefault 0x0159 = .ok (.bsr 10) ∧ decode Config.specDefault 0x001A = .ok .ret ∧
  decode Config.specDefault 0x061F = .ok (.ifs 6)

/-- R102, R82, R93 (the reading of the unused bits is D9, log 18): decoding the encoding of a well-formed instruction gives
it back, with every operand, under every choice of the parameters (strict or not, either RET opcode). -/
def Obligations.DecodeOfEncodeIsIdentity : Prop :=
  ∀ (c : Config) (i : Instr), i.wf = true → decode c (encode c i) = .ok i

/-- R102: what a word decodes to encodes to the word with its unused bits cleared; with `STRICT_X_BITS` = true, to the very
word. That a word with an unused bit set decodes at all is the reading of R93 in D9 (log 18), and that the result is well
formed is the model's spelling of 0x0000 (log 15). -/
def Obligations.EncodeOfDecodeClearsUnusedBits : Prop :=
  ∀ (c : Config) (w : Word) (i : Instr), decode c w = .ok i →
    i.wf = true ∧ encode c i = w &&& ~~~ xMask i ∧ (c.strictXBits = true → encode c i = w)

/-- The encodings of R134 to R136, R152 to R154, R161, R162, R171 to R173, R181, R88 and R141: the lines assemble to their
words, every operand in its place beside the opcode. RET's two words are D5 (log 19). -/
def Obligations.RemainingInstructionsHaveTheirWords : Prop :=
  (∀ a b : Reg,
    AssemblesTo "add" [.reg a, .reg b] (.add a b) (a.val * 4096 + b.val * 256 + 0b00101) ∧
    AssemblesTo "sub" [.reg a, .reg b] (.sub a b) (a.val * 4096 + b.val * 256 + 0b00110) ∧
    AssemblesTo "cmp" [.reg a, .reg b] (.cmp a b) (a.val * 4096 + b.val * 256 + 0b00111) ∧
    AssemblesTo "ld" [.reg a, .reg b] (.ld a b) (a.val * 4096 + b.val * 256 + 0b10000) ∧
    AssemblesTo "st" [.reg a, .reg b] (.st a b) (a.val * 4096 + b.val * 256 + 0b10100)) ∧
  (∀ (a : Reg) (n : BitVec 7),
    AssemblesTo "addi" [.reg a, .num n.toNat] (.addi a n) (a.val * 4096 + n.toNat * 32 + 0b01101) ∧
    AssemblesTo "subi" [.reg a, .num n.toNat] (.subi a n) (a.val * 4096 + n.toNat * 32 + 0b01110) ∧
    AssemblesTo "cmpi" [.reg a, .num n.toInt] (.cmpi a n) (a.val * 4096 + n.toNat * 32 + 0b01111)) ∧
  (∀ (a : Reg) (d : Nat), 1 ≤ d → d ≤ 15 →
    AssemblesTo "lsli" [.reg a, .num d] (.lsli a (BitVec.ofNat 4 (16 - d))) (a.val * 4096 + (16 - d) * 256 + 0b01000)) ∧
  ∀ c : Config,
    (∀ n : BitVec 11, (encode c (.br n)).toNat = n.toNat * 32 + 0b11000 ∧ (encode c (.bsr n)).toNat = n.toNat * 32 + 0b11001) ∧
    (c.retOpcode = .op11010 → (encode c .ret).toNat = 0b11010) ∧ (c.retOpcode = .op11011 → (encode c .ret).toNat = 0b11011) ∧
    ∀ code : BitVec 4, (encode c (.ifs code)).toNat = code.toNat * 256 + 0b11111

/-- R94, R91 (D8, D5; log 17, log 19): the words refused as illegal are exactly those with an unassigned opcode in bits 4:0;
a decoder error is that or `ReservedBits`, about the very word. -/
def Obligations.IllegalWordsAreTheUnassignedOpcodes : Prop :=
  ∀ (c : Config) (w : Word),
    (decode c w = .error (.illegalInstruction w) ↔ unassignedOpcode c (opcodeField w).toNat = true) ∧
    ∀ e, decode c w = .error e → e = .illegalInstruction w ∨ e = .reservedBits w

/-- R93 (D9): a word is refused for its unused bits exactly when `STRICT_X_BITS` is true, the lenient decoder reads an
instruction and a bit that instruction does not use is 1. -/
def Obligations.StrictDecoderRefusesUsedXBits : Prop :=
  ∀ (c : Config) (w : Word),
    decode c w = .error (.reservedBits w) ↔
      c.strictXBits = true ∧
        ∃ i, decode { c with strictXBits := false } w = .ok i ∧ ∃ k < 16, (xMask i).getLsbD k = true ∧ w.getLsbD k = true

/-- R89 (derived by the spec from R90): the opcode alone selects the instruction: words with equal bits 4:0 are both illegal
or both the same instruction (the one with that opcode), with other operands at most. -/
def Obligations.OpcodeAloneSelectsInstruction : Prop :=
  ∀ (c : Config) (w w' : Word), c.strictXBits = false → opcodeField w = opcodeField w' →
    (decode c w = .error (.illegalInstruction w) ↔ decode c w' = .error (.illegalInstruction w')) ∧
    ∀ i, decode c w = .ok i → opcodeOf c i = opcodeField w ∧ ∃ i', decode c w' = .ok i' ∧ opcodeOf c i' = opcodeOf c i

/-! ### The step -/

/-- R25 (derived by the spec from R23, R24, R30), R56: when the two bytes at xpc decode to `i`, xpc is even and admitted,
the bus is ready, nothing is skipped and no store raced with the fetch, the step is `exec i`, which itself moves xpc and pc. -/
def Obligations.StepExecutesDecodedInstruction : Prop :=
  ∀ (s : State) (i : Instr),
    isOdd s.xpc = false → s.ibusReady = true → admits s.cfg.imemRegions s.xpc = true → s.prefetch = none →
    s.skip = false →
    decodeBytes s.cfg [Memory.byte s.fetchStorage s.fetchStore s.xpc.toNat,
      Memory.byte s.fetchStorage s.fetchStore (s.xpc.toNat + 1)] = .ok (i, []) →
    step s = exec i s

/-- A word placed where the next fetch reads is the instruction the next step executes (log 26), for every word the decoder
accepts. -/
def Obligations.PlacedWordIsExecuted : Prop :=
  ∀ (s : State) (n : Nat) (i : Instr),
    isOdd s.xpc = false → admits s.cfg.imemRegions s.xpc = true → n < 65536 →
    decode s.cfg (BitVec.ofNat 16 n) = .ok i →
    step (s.withFetchWord 16 n) = exec i (s.withFetchWord 16 n)

/-- R61, and R182 b, c, f with R25, which the spec derives or decides (D21, log 23): a skipped word, LD and ST among them,
makes no transfer and changes nothing but skip, xpc and pc. It is not decoded, an illegal word included (D8, log 17). -/
def Obligations.SkippedWordHasNoEffect : Prop :=
  ∀ (s : State) (w : Word), s.fetch = .done w → s.skip = true →
    ∃ t, step s = .next t ∧ t.skip = false ∧ t.xpc = s.pc ∧ t.pc = s.pc + 2 ∧ t.flags = s.flags ∧ t.draws = s.draws ∧
      t.prefetch = none ∧ Keeps [] s t

/-- R56, R55 (D14, D26; log 11, log 16): the fetch of an even xpc that `imem_admits` answers the half word there; elsewhere
the step is `FetchUnmapped`; an odd xpc is `MisalignedFetch`. (`s.prefetch = none`: no store raced with this fetch.) -/
def Obligations.FetchAnswersOrFaults : Prop :=
  ∀ s : State, s.ibusReady = true → s.prefetch = none →
    (isOdd s.xpc = true → step s = .fault (.misalignedFetch s.xpc s.xpc)) ∧
    (isOdd s.xpc = false → admits s.cfg.imemRegions s.xpc = false → step s = .fault (.fetchUnmapped s.xpc)) ∧
    (isOdd s.xpc = false → admits s.cfg.imemRegions s.xpc = true →
      s.fetch = .done (joinBytes s.cfg.byteOrder (Memory.byte s.fetchStorage s.fetchStore s.xpc.toNat)
        (Memory.byte s.fetchStorage s.fetchStore (s.xpc.toNat + 1))))

/-- R94 (D8, log 17): an executed word with an unassigned opcode is `IllegalInstruction`, whatever its other bits; a skipped
one is not decoded and does not fault. -/
def Obligations.UnassignedOpcodeFaultsUnlessSkipped : Prop :=
  ∀ (s : State) (w : Word), s.fetch = .done w → unassignedOpcode s.cfg (opcodeField w).toNat = true →
    (s.skip = false → step s = .fault (.illegalInstruction w s.xpc)) ∧
    (s.skip = true → ∃ t, step s = .next t ∧ t.xpc = s.pc ∧ t.skip = false)

/-- R62, R209 as the model has them (log 13): while a bus interface does not become ready the core waits, its state
unchanged: the fetch of an even xpc, and LD and ST at an even address. -/
def Obligations.CoreWaitsForTheBus : Prop :=
  ∀ s : State,
    (isOdd s.xpc = false → s.ibusReady = false → step s = .next s) ∧
    ∀ a b : Reg, isOdd (s.reg b) = false → s.dbusReady = false →
      exec (.ld a b) s = .next s ∧ exec (.st a b) s = .next s

/-! ### Reset and invariants -/

/-- R34, R240 (D2, D3; log 3) but for the registers (their zeros are the model's choice, log 2) and the memories: after
reset the flags are undefined, `skip` is 0, xpc is `RESET_PC` and pc the address after it, for every choice of the
parameters. `RESET_PC` is 0x0000 in State.reset. That both memories list nothing is the model's choice: no half word has a
value until one is stored or the program image is put in (log 8, log 26). -/
def Obligations.ResetStateIsAsSpecified : Prop :=
  (∀ c : Config,
    let s := State.resetWith c
    s.xpc = c.resetPc ∧ s.pc = c.resetPc + 2 ∧ s.skip = false ∧
    s.flags.n.isUndef = true ∧ s.flags.v.isUndef = true ∧ s.flags.z.isUndef = true ∧ s.flags.c.isUndef = true ∧
    s.imem = [] ∧ s.dmem = [] ∧ s.cfg = c) ∧
  State.reset.xpc = 0x0000 ∧ State.reset.pc = 0x0002

/-- The invariant holds after reset, with the parameters of State.reset and with any the spec admits. -/
def Obligations.ResetKeepsInvariant : Prop :=
  State.reset.Inv ∧ ∀ c : Config, c.wf = true → (State.resetWith c).Inv

/-- Every step keeps the invariant: memories stay canonical, pc and xpc stay even (R26), no flag is undefined under a draw
that is still to come, and a word is fetched early only where storage is shared (R66). -/
def Obligations.StepPreservesInvariant : Prop :=
  ∀ s t : State, s.Inv → step s = .next t → t.Inv

/-- R50, R66 (base model, D16): no step writes instruction memory, `imem`. With `UNIFIED_MEMORY` = true `imem` is unused and stays
too, but a store does write the storage that fetch reads, `dmem` (log 14). That no step changes the parameters is the model's
choice (log 10), and that none changes the bus inputs is too (log 13). -/
def Obligations.StepNeverWritesInstructionMemory : Prop :=
  ∀ s t : State, step s = .next t →
    t.imem = s.imem ∧ t.cfg = s.cfg ∧ t.ibusReady = s.ibusReady ∧ t.dbusReady = s.dbusReady

/-- R200 (D18, log 25): on a ready bus nothing changes the flow of control except BR, BSR, RET and the skip of IFS: the
instruction being fetched always executes next, pc moves on by 2 unless a branch was executed, and `skip` is 1 afterwards
only if an IFS was. -/
def Obligations.OnlyBranchesAndIfsChangeTheFlow : Prop :=
  ∀ s t : State, s.ibusReady = true → s.dbusReady = true → step s = .next t →
    t.xpc = s.pc ∧
    (t.pc = s.pc + 2 ∨ ∃ i, s.executes i ∧ isBranch i = true) ∧
    (t.skip = true → ∃ code, s.executes (.ifs code))

/-- R53 (and for devices D25, log 12): data memory is written by ST only, devices are reached by LD and ST only, and what any
other instruction does is the same whatever data memory holds: it does not read it. (In shared storage, D16, its own word lies
there too: there the two memories are to hold the same word at xpc.) -/
def Obligations.OnlyLoadAndStoreTouchDataMemory : Prop :=
  (∀ s t : State, step s = .next t →
    (t.dmem ≠ s.dmem → ∃ a b, s.executes (.st a b)) ∧
    (t.io ≠ s.io → ∃ i, s.executes i ∧ isMemory i = true)) ∧
  ∀ (i : Instr) (s : State) (m : Memory), isMemory i = false →
    (s.cfg.unifiedMemory = true → ({ s with dmem := m } : State).fetch = s.fetch) →
    exec i { s with dmem := m } = mapNext (fun t => { t with dmem := m }) (exec i s)

/-- R29: which instruction writes which flag. The logic group sets N and Z and leaves V and C undefined, the arithmetic
group sets all four, no other instruction writes a flag, nor does a skipped one. -/
def Obligations.FlagsAreWrittenByTheirGroupOnly : Prop :=
  (∀ (i : Instr) (s t : State), exec i s = .next t →
    match flagGroupOf i with
    | .logic => t.flags.n.isUndef = false ∧ t.flags.v.isUndef = true ∧ t.flags.z.isUndef = false ∧ t.flags.c.isUndef = true
    | .arithmetic =>
      t.flags.n.isUndef = false ∧ t.flags.v.isUndef = false ∧ t.flags.z.isUndef = false ∧ t.flags.c.isUndef = false
    | .none => t.flags = s.flags) ∧
  ∀ s t : State, s.skip = true → step s = .next t → t.flags = s.flags

/-- R201 (D18; log 16, log 17): exec raises no fault but the ones of its instruction's rows, each only where its row's
condition holds, with what the row keeps; and it refuses nothing. `UNDEF_FLAG_READ` is no parameter of R201 but the model's
own (log 5). Of `UnspecifiedShift` the word is the one fetched; what exec keeps where nothing can be fetched, which no step
asks, is log 27. -/
def Obligations.FaultsComeFromTheirInstructionsOnly : Prop :=
  ∀ (i : Instr) (s : State),
    (∀ r, exec i s ≠ .refused r) ∧
    ∀ f, exec i s = .fault f →
      match f with
      | .reservedCondition code x => i = .ifs code ∧ x = s.xpc ∧ condOf s.cfg code = none
      | .undefinedFlagRead code x =>
        i = .ifs code ∧ x = s.xpc ∧ s.cfg.undefFlagRead = .fault ∧
          ∃ k, condOf s.cfg code = some k ∧ condReadsUndef k s.flags = true
      | .unspecifiedShift w x =>
        x = s.xpc ∧ s.cfg.lsliZero = .refuse ∧ (∃ a, i = .lsli a 0) ∧ ∀ w', s.fetch = .done w' → w = w'
      | .misalignedData ea x => x = s.xpc ∧ isOdd ea = true ∧ ∃ a b, (i = .ld a b ∨ i = .st a b) ∧ ea = s.reg b
      | .dataUnmapped ea x =>
        x = s.xpc ∧ isOdd ea = false ∧ admits s.cfg.ioRegions ea = false ∧ admits s.cfg.dmemRegions ea = false ∧
          ∃ a b, (i = .ld a b ∨ i = .st a b) ∧ ea = s.reg b
      | .misalignedFetch t x => x = s.xpc ∧ isOdd t = true ∧ s.Targets i t
      | .branchInDelaySlot x p =>
        x = s.xpc ∧ p = s.pc ∧ s.pc ≠ s.xpc + 2 ∧ isBranch i = true ∧ s.cfg.branchInSlot = .refuse
      | .illegalInstruction _ _ => False
      | .reservedBits _ _ => False
      | .fetchUnmapped _ => False

/-! ### Logic (40_logic.md) -/

/-- R121 to R123: OR, AND and XOR complete in every state, put the bitwise result in x[A], set N and Z from it, leave V and C
undefined and change nothing else; their lines assemble to `AAAA BBBB 000` and the opcode (`or r0 r0` is the word of `nop`). -/
def Obligations.LogicInstructionsCompute : Prop :=
  ∀ (a b : Reg) (s : State),
    (∃ t, exec (.or a b) s = .next t ∧ LogicEffect a s t ∧
      ∀ k < 16, (t.reg a).getLsbD k = ((s.reg a).getLsbD k || (s.reg b).getLsbD k)) ∧
    (∃ t, exec (.and a b) s = .next t ∧ LogicEffect a s t ∧
      ∀ k < 16, (t.reg a).getLsbD k = ((s.reg a).getLsbD k && (s.reg b).getLsbD k)) ∧
    (∃ t, exec (.xor a b) s = .next t ∧ LogicEffect a s t ∧
      ∀ k < 16, (t.reg a).getLsbD k = ((s.reg a).getLsbD k ^^ (s.reg b).getLsbD k)) ∧
    AssemblesTo "or" [.reg a, .reg b] (if a = 0 ∧ b = 0 then .nop else .or a b) (a.val * 4096 + b.val * 256) ∧
    AssemblesTo "and" [.reg a, .reg b] (.and a b) (a.val * 4096 + b.val * 256 + 0b00001) ∧
    AssemblesTo "xor" [.reg a, .reg b] (.xor a b) (a.val * 4096 + b.val * 256 + 0b00010)

/-- The model's bookkeeping of undefined flags (log 4): the V and C a logic instruction leaves undefined carry two free
values of their own, which no flag carried before; no other instruction gives a flag a free value; numbers are never reused. -/
def Obligations.UndefinedFlagsCarryFreshValues : Prop :=
  ∀ (i : Instr) (s t : State), exec i s = .next t →
    s.draws ≤ t.draws ∧
    (flagGroupOf i = .logic → ∃ j k, t.flags.v = .undef j ∧ t.flags.c = .undef k ∧ j ≠ k ∧
      s.draws ≤ j ∧ s.draws ≤ k ∧ j < t.draws ∧ k < t.draws) ∧
    (flagGroupOf i ≠ .logic → ∀ k, (t.flags.n = .undef k → s.flags.n = .undef k) ∧
      (t.flags.v = .undef k → s.flags.v = .undef k) ∧ (t.flags.z = .undef k → s.flags.z = .undef k) ∧
      (t.flags.c = .undef k → s.flags.c = .undef k))

/-- R101: the word 0x0000 is `nop`, executed as `or r0 r0`: every register keeps its value, N and Z are set from r0, V and C
become undefined. -/
def Obligations.NopIsOrOfRegisterZero : Prop :=
  (∀ c : Config, decode c 0x0000 = .ok .nop ∧ encode c .nop = 0x0000 ∧ encode c (.or 0 0) = 0x0000) ∧
  ∀ s : State, exec .nop s = exec (.or 0 0) s ∧
    ∃ t, exec .nop s = .next t ∧ LogicEffect 0 s t ∧ t.reg 0 = s.reg 0 ∧ ∀ r, t.reg r = s.reg r

/-- R124: NOT completes in every state, inverts all 16 bits of x[A], keeps every flag, done twice restores the
register, and assembles to `AAAA 0000000 00011`. -/
def Obligations.NotInvertsEveryBit : Prop :=
  ∀ (a : Reg) (s : State),
    ∃ t, exec (.not a) s = .next t ∧ MoveEffect a s t ∧ (t.reg a).toNat = 65535 - (s.reg a).toNat ∧
      (∀ k < 16, (t.reg a).getLsbD k = !(s.reg a).getLsbD k) ∧
      (∃ u, exec (.not a) t = .next u ∧ ∀ r, u.reg r = s.reg r) ∧
      AssemblesTo "not" [.reg a] (.not a) (a.val * 4096 + 0b00011)

/-! ### Move and arithmetic (41_move_arith.md), immediate forms (43_immediate.md) -/

/-- R133: MOV completes in every state and copies x[B] to x[A]; with A = B no register changes. -/
def Obligations.MovCopiesRegister : Prop :=
  ∀ (a b : Reg) (s : State),
    ∃ t, exec (.mov a b) s = .next t ∧ MoveEffect a s t ∧ t.reg a = s.reg b ∧ (a = b → ∀ r, t.reg r = s.reg r) ∧
      AssemblesTo "mov" [.reg a, .reg b] (.mov a b) (a.val * 4096 + b.val * 256 + 0b00100)

/-- R131 (its formulas are D11, log 22), R134, R152: ADD and ADDI complete in every state; the result is the sum modulo
2^16, C the carry out of bit 15, V the signed overflow, N and Z of the result; ADDI's operand is the field as an unsigned
number. -/
def Obligations.AdditionSetsSumAndFlags : Prop :=
  (∀ (a b : Reg) (s : State), ∃ t, exec (.add a b) s = .next t ∧ SumFlags (s.reg a) (s.reg b) t.flags ∧
    (t.reg a).toNat = ((s.reg a).toNat + (s.reg b).toNat) % 65536 ∧
    Keeps [a] s t ∧ Sequential s t ∧ t.draws = s.draws) ∧
  ∀ (a : Reg) (n : BitVec 7) (s : State), ∃ t, exec (.addi a n) s = .next t ∧
    SumFlags (s.reg a) (BitVec.ofNat 16 n.toNat) t.flags ∧
    (t.reg a).toNat = ((s.reg a).toNat + n.toNat) % 65536 ∧
    Keeps [a] s t ∧ Sequential s t ∧ t.draws = s.draws

/-- R132 (D10, D11; log 22), R135, R153: SUB and SUBI complete in every state; the result is the difference modulo 2^16, C
the borrow (or its complement, `SUB_CARRY_IS_BORROW` = false), V the signed overflow, Z equality; SUBI's operand is the
field as an unsigned number. -/
def Obligations.SubtractionSetsDifferenceAndFlags : Prop :=
  (∀ (a b : Reg) (s : State), ∃ t, exec (.sub a b) s = .next t ∧
    DifferenceFlags s.cfg.subCarryIsBorrow (s.reg a) (s.reg b) t.flags ∧
    ((t.reg a).toNat : Int) = ((s.reg a).toNat - (s.reg b).toNat : Int) % 65536 ∧
    Keeps [a] s t ∧ Sequential s t ∧ t.draws = s.draws) ∧
  ∀ (a : Reg) (n : BitVec 7) (s : State), ∃ t, exec (.subi a n) s = .next t ∧
    DifferenceFlags s.cfg.subCarryIsBorrow (s.reg a) (BitVec.ofNat 16 n.toNat) t.flags ∧
    ((t.reg a).toNat : Int) = ((s.reg a).toNat - n.toNat : Int) % 65536 ∧
    Keeps [a] s t ∧ Sequential s t ∧ t.draws = s.draws

/-- R132 (D10, D11; log 22), R136, R154: CMP and CMPI complete in every state, write no register and set the flags of the
difference; CMPI's operand is the field as a signed number. -/
def Obligations.CompareSetsFlagsOnly : Prop :=
  (∀ (a b : Reg) (s : State), ∃ t, exec (.cmp a b) s = .next t ∧
    DifferenceFlags s.cfg.subCarryIsBorrow (s.reg a) (s.reg b) t.flags ∧
    Keeps [] s t ∧ Sequential s t ∧ t.draws = s.draws) ∧
  ∀ (a : Reg) (n : BitVec 7) (s : State), ∃ t, exec (.cmpi a n) s = .next t ∧
    DifferenceFlags s.cfg.subCarryIsBorrow (s.reg a) (BitVec.ofInt 16 n.toInt) t.flags ∧
    Keeps [] s t ∧ Sequential s t ∧ t.draws = s.draws

/-- R151, R86: MOVI completes in every state and puts the field, read as a signed number, in x[A]. -/
def Obligations.MoviLoadsSignedImmediate : Prop :=
  ∀ (a : Reg) (n : BitVec 7) (s : State),
    ∃ t, exec (.movi a n) s = .next t ∧ MoveEffect a s t ∧ (t.reg a).toInt = n.toInt ∧
      -64 ≤ (t.reg a).toInt ∧ (t.reg a).toInt ≤ 63 ∧
      AssemblesTo "movi" [.reg a, .num n.toInt] (.movi a n) (a.val * 4096 + n.toNat * 32 + 0b01100)

/-! ### Shifts (42_shift.md) -/

/-- R141: LSLI with a non-zero field completes in every state and multiplies by 2 to the 16 minus the field, modulo 2^16. -/
def Obligations.LsliShiftsBySixteenMinusField : Prop :=
  ∀ (a : Reg) (n : BitVec 4) (s : State), n ≠ 0 →
    ∃ t, exec (.lsli a n) s = .next t ∧ MoveEffect a s t ∧
      (t.reg a).toNat = (s.reg a).toNat * 2 ^ (16 - n.toNat) % 65536

/-- R88, R141: the distance the assembler is given, 1 to 15, is the distance the hardware shifts by. -/
def Obligations.LsliAssemblesToItsDistance : Prop :=
  ∀ (c : Config) (x : Word) (a : Reg) (d : Nat) (s : State), 1 ≤ d → d ≤ 15 →
    ∃ i t, assemble c x "lsli" [.reg a, .num d] = some i ∧ exec i s = .next t ∧
      (t.reg a).toNat = (s.reg a).toNat * 2 ^ d % 65536

/-- R141 (D12): LSLI with field 0 is `LSLI_ZERO`: unchanged, cleared, one of the two (the model's `either`, log 6), or the
fault `UnspecifiedShift`, which keeps the word fetched. -/
def Obligations.LsliFieldZeroFollowsItsParameter : Prop :=
  ∀ (a : Reg) (s : State),
    (s.cfg.lsliZero = .identity → ∃ t, exec (.lsli a 0) s = .next t ∧ MoveEffect a s t ∧ t.reg a = s.reg a) ∧
    (s.cfg.lsliZero = .zero → ∃ t, exec (.lsli a 0) s = .next t ∧ MoveEffect a s t ∧ (t.reg a).toNat = 0) ∧
    (s.cfg.lsliZero = .either →
      ∃ t, exec (.lsli a 0) s = .next t ∧ MoveEffect a s t ∧ (t.reg a = s.reg a ∨ (t.reg a).toNat = 0)) ∧
    (s.cfg.lsliZero = .refuse → (∃ w, exec (.lsli a 0) s = .fault (.unspecifiedShift w s.xpc)) ∧
      ∀ w, s.fetch = .done w → exec (.lsli a 0) s = .fault (.unspecifiedShift w s.xpc))

/-- R142: LSRI completes in every state; the result is the unsigned value divided by 2^imm4, rounded down. -/
def Obligations.LsriDividesUnsigned : Prop :=
  ∀ (a : Reg) (n : BitVec 4) (s : State),
    ∃ t, exec (.lsri a n) s = .next t ∧ MoveEffect a s t ∧ (t.reg a).toNat = (s.reg a).toNat / 2 ^ n.toNat ∧
      AssemblesTo "lsri" [.reg a, .num n.toNat] (.lsri a n) (a.val * 4096 + n.toNat * 256 + 0b01001)

/-- R143: ASRI completes in every state; the result is the signed value divided by 2^imm4, rounded toward minus infinity. -/
def Obligations.AsriDividesSignedRoundingDown : Prop :=
  ∀ (a : Reg) (n : BitVec 4) (s : State),
    ∃ t, exec (.asri a n) s = .next t ∧ MoveEffect a s t ∧ (t.reg a).toInt = (s.reg a).toInt / 2 ^ n.toNat ∧
      AssemblesTo "asri" [.reg a, .num n.toNat] (.asri a n) (a.val * 4096 + n.toNat * 256 + 0b01010)

/-- R144: ROTI completes in every state; bit i of the old value is bit (i - imm4) mod 16 of the new one. -/
def Obligations.RotiRotatesRight : Prop :=
  ∀ (a : Reg) (n : BitVec 4) (s : State),
    ∃ t, exec (.roti a n) s = .next t ∧ MoveEffect a s t ∧
      (∀ k < 16, (t.reg a).getLsbD ((k + 16 - n.toNat) % 16) = (s.reg a).getLsbD k) ∧
      AssemblesTo "roti" [.reg a, .num n.toNat] (.roti a n) (a.val * 4096 + n.toNat * 256 + 0b01011)

/-! ### Load and store (44_load_store.md) -/

/-- R161, R57 (the regions are D26, log 11; the bytes D15, log 9): LD from an even address with memory behind it completes,
puts the half word there in x[A] (A = B too) and changes nothing else. Of a half word that nothing stored and no image gave,
the model loads the free launch value, of which nothing can be proved (log 8). -/
def Obligations.LoadReadsDataMemory : Prop :=
  ∀ (a b : Reg) (s : State), isOdd (s.reg b) = false → s.dbusReady = true →
    admits s.cfg.ioRegions (s.reg b) = false → admits s.cfg.dmemRegions (s.reg b) = true →
    ∃ t, exec (.ld a b) s = .next t ∧ MoveEffect a s t ∧
      t.reg a = joinBytes s.cfg.byteOrder (Memory.byte .data s.dmem (s.reg b).toNat)
        (Memory.byte .data s.dmem ((s.reg b).toNat + 1))

/-- R162, R58 (the regions are D26, log 11; the bytes D15, log 9): ST to an even address with memory behind it completes: the
half word at x[B] becomes x[A], every other byte of data memory, every byte of instruction memory, every register and flag
stay; pc moves on. The address stored to is x[B], as in the meaning. That it completes in shared storage too, where
`imem_admits` holds of the address, is the model's choice among the two of R66, both outcomes of the race instead of D16's
refusal (log 14). -/
def Obligations.StoreWritesDataMemory : Prop :=
  ∀ (a b : Reg) (s : State), isOdd (s.reg b) = false → s.dbusReady = true →
    admits s.cfg.ioRegions (s.reg b) = false → admits s.cfg.dmemRegions (s.reg b) = true →
    ∃ t, exec (.st a b) s = .next t ∧
      Memory.read t.dmem (s.reg b).toNat = some (firstByte s.cfg.byteOrder (s.reg a)) ∧
      Memory.read t.dmem ((s.reg b).toNat + 1) = some (secondByte s.cfg.byteOrder (s.reg a)) ∧
      (∀ k, k ≠ (s.reg b).toNat ∧ k ≠ (s.reg b).toNat + 1 → Memory.read t.dmem k = Memory.read s.dmem k) ∧
      (∀ k, Memory.read t.imem k = Memory.read s.imem k) ∧
      (∀ r, t.reg r = s.reg r) ∧ t.flags = s.flags ∧ t.cfg = s.cfg ∧ t.io = s.io ∧
      t.ibusReady = s.ibusReady ∧ t.dbusReady = s.dbusReady ∧
      t.xpc = s.pc ∧ t.pc = s.pc + 2 ∧ t.skip = s.skip ∧
      (s.storeRaces (s.reg b) = false → t.prefetch = none ∧ t.draws = s.draws)

/-- R57, R65: a load right after a store to the same address gives what was stored, whatever the registers used. -/
def Obligations.LoadAfterStoreReturnsTheValue : Prop :=
  ∀ (a b a' b' : Reg) (s t : State), isOdd (s.reg b) = false → s.dbusReady = true →
    admits s.cfg.ioRegions (s.reg b) = false → admits s.cfg.dmemRegions (s.reg b) = true →
    exec (.st a b) s = .next t → s.reg b' = s.reg b →
    ∃ u, exec (.ld a' b') t = .next u ∧ u.reg a' = s.reg a

/-- R57, R58, R60 (devices, log 12): in `io_region` LD completes with what the platform answers, ST hands the value to the
platform; each is one transfer, recorded, and memory is untouched. The answer is a free value: nothing is said of it. -/
def Obligations.DeviceAccessesGoToThePlatform : Prop :=
  ∀ (a b : Reg) (s : State), isOdd (s.reg b) = false → s.dbusReady = true → admits s.cfg.ioRegions (s.reg b) = true →
    (∃ t, exec (.ld a b) s = .next t ∧ t.reg a = Config.oracle s.draws (s.reg b) ∧ t.draws = s.draws + 1 ∧
      t.io = s.io ++ [.read (s.reg b)] ∧ t.dmem = s.dmem ∧ t.imem = s.imem ∧ t.flags = s.flags ∧
      (∀ r, r ≠ a → t.reg r = s.reg r) ∧ Sequential s t) ∧
    (∃ t, exec (.st a b) s = .next t ∧ t.io = s.io ++ [.write (s.reg b) (s.reg a)] ∧ t.draws = s.draws ∧
      t.dmem = s.dmem ∧ t.imem = s.imem ∧ t.flags = s.flags ∧ (∀ r, t.reg r = s.reg r) ∧ Sequential s t)

/-- R55, R57, R58, R202 (D13, D26; log 11, log 16): LD and ST at an odd address are `MisalignedData`, found before anything
else; at an even address with neither memory nor device behind it, on a ready bus, they are `DataUnmapped`. -/
def Obligations.BadDataAddressesFault : Prop :=
  ∀ (a b : Reg) (s : State),
    (isOdd (s.reg b) = true → exec (.ld a b) s = .fault (.misalignedData (s.reg b) s.xpc) ∧
      exec (.st a b) s = .fault (.misalignedData (s.reg b) s.xpc)) ∧
    (isOdd (s.reg b) = false → s.dbusReady = true → admits s.cfg.ioRegions (s.reg b) = false →
      admits s.cfg.dmemRegions (s.reg b) = false →
      exec (.ld a b) s = .fault (.dataUnmapped (s.reg b) s.xpc) ∧ exec (.st a b) s = .fault (.dataUnmapped (s.reg b) s.xpc))

/-- R66 with `UNIFIED_MEMORY` = true (log 14): the word fetched after a store to the address being fetched is the old one or
the stored one; after a store to any other address it is what memory then holds. -/
def Obligations.SharedStorageStoreRacesWithFetch : Prop :=
  ∀ (a b : Reg) (s t : State), s.cfg.unifiedMemory = true → isOdd s.pc = false → s.ibusReady = true →
    s.dbusReady = true → admits s.cfg.ioRegions (s.reg b) = false → admits s.cfg.imemRegions s.pc = true →
    exec (.st a b) s = .next t →
    (s.reg b = s.pc → t.fetch = .done (s.reg a) ∨
      t.fetch = .done (Memory.readHalf .data s.cfg.byteOrder s.dmem s.pc)) ∧
    (s.reg b ≠ s.pc → t.fetch = .done (Memory.readHalf .data s.cfg.byteOrder s.dmem s.pc))

/-! ### Control transfer (45_branch.md) -/

/-- R171, R87 (the scale is D4, log 21; the wrap D1, log 1): BR to an even target completes where a branch may stand: the
delay slot executes next, then the target, pc plus the signed field times `BRANCH_SCALE` modulo 2^16. -/
def Obligations.BranchGoesToItsTarget : Prop :=
  ∀ (n : BitVec 11) (s : State) (target : Word), s.mayBranch →
    (target.toNat : Int) =
      (s.pc.toNat + n.toInt * (match s.cfg.branchScale with | .one => 1 | .two => 2) : Int) % 65536 →
    isOdd target = false →
    ∃ t, exec (.br n) s = .next t ∧ t.xpc = s.pc ∧ t.pc = target ∧ t.prefetch = none ∧ t.skip = s.skip ∧
      t.flags = s.flags ∧ t.draws = s.draws ∧ Keeps [] s t

/-- R172 (with D4 and D1 as for BR): BSR does what BR does and puts pc + 2, the address after the delay slot, in r15. -/
def Obligations.BranchToSubroutineLinks : Prop :=
  ∀ (n : BitVec 11) (s : State) (target : Word), s.mayBranch →
    (target.toNat : Int) =
      (s.pc.toNat + n.toInt * (match s.cfg.branchScale with | .one => 1 | .two => 2) : Int) % 65536 →
    isOdd target = false →
    ∃ t, exec (.bsr n) s = .next t ∧ t.reg 15 = s.pc + 2 ∧ t.xpc = s.pc ∧ t.pc = target ∧ t.prefetch = none ∧
      t.skip = s.skip ∧ t.flags = s.flags ∧ t.draws = s.draws ∧ Keeps [15] s t

/-- R173: RET with an even r15 completes where a branch may stand: the delay slot executes next, then the instruction at
r15. -/
def Obligations.ReturnGoesToLinkRegister : Prop :=
  ∀ s : State, s.mayBranch → isOdd (s.reg 15) = false →
    ∃ t, exec .ret s = .next t ∧ t.xpc = s.pc ∧ t.pc = s.reg 15 ∧ t.prefetch = none ∧ t.skip = s.skip ∧
      t.flags = s.flags ∧ t.draws = s.draws ∧ Keeps [] s t

/-- R171, R172, R174, R202 (D14, log 16): a branch that may stand where it is and whose target is odd is `MisalignedFetch`
of the target; with `BRANCH_SCALE` = 2 and an even pc BR and BSR have no odd target. -/
def Obligations.OddBranchTargetsFault : Prop :=
  ∀ s : State, s.mayBranch →
    (isOdd (s.reg 15) = true → exec .ret s = .fault (.misalignedFetch (s.reg 15) s.xpc)) ∧
    (∀ n : BitVec 11, s.cfg.branchScale = .one → isOdd s.pc = false → n.toNat % 2 = 1 →
      exec (.br n) s = .fault (.misalignedFetch (s.pc + n.signExtend 16) s.xpc) ∧
      exec (.bsr n) s = .fault (.misalignedFetch (s.pc + n.signExtend 16) s.xpc)) ∧
    (∀ n : BitVec 11, s.cfg.branchScale = .two → isOdd s.pc = false →
      (∃ t, exec (.br n) s = .next t) ∧ ∃ t, exec (.bsr n) s = .next t)

/-- R175 (D22, log 7): with `ALLOW_BRANCH_IN_SLOT` = refuse a branch executed while pc is not xpc + 2 is `BranchInDelaySlot`; with
allow, pc is the first branch's target: BR and BSR there go to pc plus their scaled offset, BSR with pc + 2 in r15, RET there
goes to r15, and the instruction at pc executes next, as the new delay slot. BR and BSR need pc plus the offset even, RET an even r15. -/
def Obligations.BranchInDelaySlotFollowsItsParameter : Prop :=
  ∀ s : State, s.pc ≠ s.xpc + 2 →
    (s.cfg.branchInSlot = .refuse → ∀ i, isBranch i = true → exec i s = .fault (.branchInDelaySlot s.xpc s.pc)) ∧
    (s.cfg.branchInSlot = .allow →
      (∀ n : BitVec 11, isOdd (s.pc + branchOffset s.cfg.branchScale n) = false →
        (∃ t, exec (.br n) s = .next t ∧ t.xpc = s.pc ∧ t.pc = s.pc + branchOffset s.cfg.branchScale n) ∧
        ∃ t, exec (.bsr n) s = .next t ∧ t.xpc = s.pc ∧ t.pc = s.pc + branchOffset s.cfg.branchScale n ∧
          t.reg 15 = s.pc + 2) ∧
      (isOdd (s.reg 15) = false → ∃ t, exec .ret s = .next t ∧ t.xpc = s.pc ∧ t.pc = s.reg 15))

/-- R170: after the step of a branch at X the instruction after it stands to be executed, not skipped, and pc is the target:
pc plus the scaled signed field (D4, log 21) or r15. The next step executes that instruction, once, and then xpc is the
target; if it is not a branch itself, execution goes on from there. -/
def Obligations.DelaySlotExecutesBeforeTarget : Prop :=
  ∀ (s t u : State) (i : Instr), s.dbusReady = true → s.ibusReady = true → s.executes i → isBranch i = true →
    step s = .next t → step t = .next u →
    t.xpc = s.pc ∧ t.skip = false ∧ s.Targets i t.pc ∧
      (∀ w j, t.fetch = .done w → decode t.cfg w = .ok j → exec j t = .next u) ∧
      s.Targets i u.xpc ∧
      ((∀ j, t.executes j → isBranch j = false) → u.pc = u.xpc + 2)

/-- R172, R173, R22: a RET that finds r15 as a BSR at X left it returns to X + 4, the instruction after the delay slot. -/
def Obligations.SubroutineReturnsPastTheDelaySlot : Prop :=
  ∀ (n : BitVec 11) (s t u : State), s.pc = s.xpc + 2 → isOdd s.pc = false → exec (.bsr n) s = .next t →
    u.reg 15 = t.reg 15 → u.mayBranch →
    ∃ v, exec .ret u = .next v ∧ v.xpc = u.pc ∧ v.pc = s.xpc + 4

/-- R100, R87 (derived by the spec; the scale is D4, log 21): the field the assembler computes for a branch at X to an
address makes the branch go to that address. -/
def Obligations.AssembledBranchReachesItsLabel : Prop :=
  ∀ (scale : BranchScale) (x addr : Word) (n : BitVec 11),
    branchField scale x addr = some n → x + 2 + branchOffset scale n = addr

/-! ### Conditional execution (46_conditional.md) -/

/-- R181 (the codes 0x8 and up are D6, log 20): IFS with a code that has a condition completes if no flag the condition
names is undefined (or always, with `UNDEF_FLAG_READ` = free, log 5); it writes `skip` and nothing else. -/
def Obligations.IfsWritesSkipOnly : Prop :=
  ∀ (s : State) (code : BitVec 4) (k : Cond), condOf s.cfg code = some k →
    (condReadsUndef k s.flags = false ∨ s.cfg.undefFlagRead = .free) →
    ∃ t, exec (.ifs code) s = .next t ∧
      t.skip = !condEval k s.flags.n.value s.flags.v.value s.flags.z.value s.flags.c.value ∧
      t.flags = s.flags ∧ t.draws = s.draws ∧ t.xpc = s.pc ∧ t.pc = s.pc + 2 ∧ t.prefetch = none ∧ Keeps [] s t

/-- R96: on defined flags IFS lets the next instruction execute exactly if the condition of its code is true: codes 0x0 to
0x7 of the manual, and 0x8 to 0xD with `CC_HIGH` in row order (D6). -/
def Obligations.IfsFollowsTheConditionTable : Prop :=
  ∀ (s : State) (n v z c : Bool), s.flags = ⟨.known n, .known v, .known z, .known c⟩ →
    let executesNext (code : BitVec 4) (p : Prop) : Prop := ∃ t, exec (.ifs code) s = .next t ∧ (t.skip = false ↔ p)
    executesNext 0x0 (c = false) ∧ executesNext 0x1 (c = true) ∧
    executesNext 0x2 (z = false) ∧ executesNext 0x3 (z = true) ∧
    executesNext 0x4 (n = false) ∧ executesNext 0x5 (n = true) ∧
    executesNext 0x6 (n ≠ v) ∧ executesNext 0x7 (n = v) ∧
    (s.cfg.ccHigh = ccHighInOrder →
      executesNext 0x8 (z = false ∧ n = v) ∧ executesNext 0x9 (z = true ∨ n ≠ v) ∧
      executesNext 0xA (v = false) ∧ executesNext 0xB (v = true) ∧
      executesNext 0xC (c = false ∧ z = false) ∧ executesNext 0xD (c = true ∨ z = true))

/-- R96, last sentence (D6, D10; log 20, log 22): right after a CMP of a and b (C the borrow), each condition means its
comparison of the two registers. -/
def Obligations.ConditionsAfterCompareMeanComparisons : Prop :=
  ∀ (a b : Reg) (s t : State), s.cfg.subCarryIsBorrow = true → exec (.cmp a b) s = .next t →
    let executesNext (code : BitVec 4) (p : Prop) : Prop := ∃ u, exec (.ifs code) t = .next u ∧ (u.skip = false ↔ p)
    executesNext 0x3 (s.reg a = s.reg b) ∧ executesNext 0x2 (s.reg a ≠ s.reg b) ∧
    executesNext 0x6 ((s.reg a).toInt < (s.reg b).toInt) ∧ executesNext 0x7 ((s.reg b).toInt ≤ (s.reg a).toInt) ∧
    executesNext 0x1 ((s.reg a).toNat < (s.reg b).toNat) ∧ executesNext 0x0 ((s.reg b).toNat ≤ (s.reg a).toNat) ∧
    (s.cfg.ccHigh = ccHighInOrder →
      executesNext 0x8 ((s.reg b).toInt < (s.reg a).toInt) ∧ executesNext 0x9 ((s.reg a).toInt ≤ (s.reg b).toInt) ∧
      executesNext 0xC ((s.reg b).toNat < (s.reg a).toNat) ∧ executesNext 0xD ((s.reg a).toNat ≤ (s.reg b).toNat))

/-- R183 (D23), with `UNDEF_FLAG_READ` = fault (log 5): an IFS whose condition names an undefined flag is
`UndefinedFlagRead`, even where the other flags would decide; the flags each code names are the rule's (0x8 to 0xD with
`CC_HIGH` in row order). -/
def Obligations.IfsOnUndefinedFlagFaults : Prop :=
  ∀ s : State, s.cfg.undefFlagRead = .fault →
    let faults (code : BitVec 4) : Prop := exec (.ifs code) s = .fault (.undefinedFlagRead code s.xpc)
    (s.flags.c.isUndef = true → faults 0x0 ∧ faults 0x1) ∧
    (s.flags.z.isUndef = true → faults 0x2 ∧ faults 0x3) ∧
    (s.flags.n.isUndef = true → faults 0x4 ∧ faults 0x5) ∧
    (s.flags.n.isUndef = true ∨ s.flags.v.isUndef = true → faults 0x6 ∧ faults 0x7) ∧
    (s.cfg.ccHigh = ccHighInOrder →
      (s.flags.z.isUndef = true ∨ s.flags.n.isUndef = true ∨ s.flags.v.isUndef = true → faults 0x8 ∧ faults 0x9) ∧
      (s.flags.v.isUndef = true → faults 0xA ∧ faults 0xB) ∧
      (s.flags.c.isUndef = true ∨ s.flags.z.isUndef = true → faults 0xC ∧ faults 0xD))

/-- The model's reading of undefined flags (log 4, log 5, `UNDEF_FLAG_READ` = free): an undefined flag has one value,
unknown but the same for every IFS that reads it, so on any flags the two codes of a pair send the program opposite ways. -/
def Obligations.UndefinedFlagsAnswerConsistently : Prop :=
  ∀ (s : State) (j : Nat), s.cfg.undefFlagRead = .free → s.cfg.ccHigh = ccHighInOrder → j < 7 →
    ∃ t u, exec (.ifs (BitVec.ofNat 4 (2 * j))) s = .next t ∧ exec (.ifs (BitVec.ofNat 4 (2 * j + 1))) s = .next u ∧
      u.skip = !t.skip ∧ t.flags = s.flags ∧ u.flags = s.flags

/-- R97, R202 (D7, log 17): with `CC_HIGH` in row order codes 0xE and 0xF are `ReservedCondition`, whatever the flags. -/
def Obligations.ReservedConditionsFault : Prop :=
  ∀ (s : State) (code : BitVec 4), s.cfg.ccHigh = ccHighInOrder → (code = 0xE ∨ code = 0xF) →
    exec (.ifs code) s = .fault (.reservedCondition code s.xpc)

/-- R180, R182 (D21, log 23): an IFS whose condition is false makes exactly the next instruction executed be passed over,
whatever word it is: registers, flags and memory stay, and `skip` is 0 again. -/
def Obligations.FalseIfsSkipsExactlyOneInstruction : Prop :=
  ∀ (s t : State) (code : BitVec 4) (w : Word), exec (.ifs code) s = .next t → t.skip = true → t.fetch = .done w →
    ∃ u, step t = .next u ∧ u.skip = false ∧ u.xpc = t.pc ∧ u.pc = t.pc + 2 ∧ u.flags = s.flags ∧ Keeps [] s u
end

