-- ==== Sys2Proof/Laws/Encoding.lean ====
section
/-! SUPPORT. The fields of a packed word, one lemma per field and format: the encoder's pieces read back by the decoder's.
-/

namespace Sys2Proof

/-- Reading a field of a word, bit by bit. -/
theorem extract_eq {n k : Nat} {w : Word} {x : BitVec k}
    (h : ∀ i < k, w.getLsbD (n + i) = x.getLsbD i) : w.extractLsb' n k = x := by
  refine BitVec.eq_of_getLsbD_eq fun i hi => ?_
  rw [BitVec.getLsbD_extractLsb', h i hi]
  simp [hi]

/-! ### Bits of each format -/

/-- Bits of format FI11: opcode below, imm11 above. -/
theorem getLsbD_packI11 (imm : BitVec 11) (op : BitVec 5) (i : Nat) :
    (packI11 imm op).getLsbD i = if i < 5 then op.getLsbD i else imm.getLsbD (i - 5) := by
  rw [packI11, BitVec.getLsbD_append]

/-- Bits of format FAI7. -/
theorem getLsbD_packAI7 (a : Reg) (imm : BitVec 7) (op : BitVec 5) (i : Nat) :
    (packAI7 a imm op).getLsbD i =
      if i < 5 then op.getLsbD i else if i < 12 then imm.getLsbD (i - 5)
      else (BitVec.ofFin a : BitVec 4).getLsbD (i - 12) := by
  rw [packAI7, BitVec.getLsbD_append, BitVec.getLsbD_append]
  by_cases h1 : i < 5
  · simp [h1]
  · by_cases h2 : i < 12
    · simp [h1, h2, show i - 5 < 7 by omega]
    · simp [h1, h2, show ¬ i - 5 < 7 by omega, show i - 5 - 7 = i - 12 by omega]

/-- Bits of format FAI4. -/
theorem getLsbD_packAI4 (a : Reg) (imm : BitVec 4) (op : BitVec 5) (i : Nat) :
    (packAI4 a imm op).getLsbD i =
      if i < 5 then op.getLsbD i else if i < 8 then false else if i < 12 then imm.getLsbD (i - 8)
      else (BitVec.ofFin a : BitVec 4).getLsbD (i - 12) := by
  rw [packAI4, BitVec.getLsbD_append, BitVec.getLsbD_append, BitVec.getLsbD_append]
  by_cases h1 : i < 5
  · simp [h1]
  · by_cases h2 : i < 8
    · simp [h1, h2, show i - 5 < 3 by omega]
    · by_cases h3 : i < 12
      · simp [h1, h2, h3, show ¬ i - 5 < 3 by omega, show i - 5 - 3 = i - 8 by omega,
          show i - 8 < 4 by omega]
      · simp [h1, h2, h3, show ¬ i - 5 < 3 by omega, show ¬ i - 5 - 3 < 4 by omega,
          show i - 5 - 3 - 4 = i - 12 by omega]

/-- Format FAB is FAI4 with B's number in imm4's place. -/
theorem packAB_eq (a b : Reg) (op : BitVec 5) : packAB a b op = packAI4 a (BitVec.ofFin b) op := rfl

/-! ### The word as a number -/

/-- The number of a concatenation. -/
theorem toNat_append_eq {m n : Nat} (x : BitVec m) (y : BitVec n) : (x ++ y).toNat = x.toNat * 2 ^ n + y.toNat := by
  rw [BitVec.toNat_append, Nat.shiftLeft_eq, Nat.mul_comm, ← Nat.two_pow_add_eq_or_of_lt y.isLt]

theorem packI11_toNat (n : BitVec 11) (op : BitVec 5) : (packI11 n op).toNat = n.toNat * 32 + op.toNat := by
  simp only [packI11, toNat_append_eq]; omega

theorem packAI7_toNat (a : Reg) (n : BitVec 7) (op : BitVec 5) :
    (packAI7 a n op).toNat = a.val * 4096 + n.toNat * 32 + op.toNat := by
  simp only [packAI7, toNat_append_eq, BitVec.toNat_ofFin]; omega

theorem packAI4_toNat (a : Reg) (n : BitVec 4) (op : BitVec 5) :
    (packAI4 a n op).toNat = a.val * 4096 + n.toNat * 256 + op.toNat := by
  simp only [packAI4, toNat_append_eq, BitVec.toNat_ofFin, BitVec.toNat_ofNat]; omega

theorem packAB_toNat (a b : Reg) (op : BitVec 5) :
    (packAB a b op).toNat = a.val * 4096 + b.val * 256 + op.toNat := packAI4_toNat a _ op

/-! ### Fields -/

@[simp] theorem opcodeField_packI11 (n : BitVec 11) (op : BitVec 5) : opcodeField (packI11 n op) = op :=
  extract_eq fun i hi => by simp [getLsbD_packI11, hi]

@[simp] theorem opcodeField_packAI7 (a : Reg) (n : BitVec 7) (op : BitVec 5) : opcodeField (packAI7 a n op) = op :=
  extract_eq fun i hi => by simp [getLsbD_packAI7, hi]

@[simp] theorem opcodeField_packAI4 (a : Reg) (n : BitVec 4) (op : BitVec 5) : opcodeField (packAI4 a n op) = op :=
  extract_eq fun i hi => by simp [getLsbD_packAI4, hi]

@[simp] theorem opcodeField_packAB (a b : Reg) (op : BitVec 5) : opcodeField (packAB a b op) = op :=
  opcodeField_packAI4 a _ op

@[simp] theorem fieldImm11_packI11 (n : BitVec 11) (op : BitVec 5) : fieldImm11 (packI11 n op) = n :=
  extract_eq fun i _ => by simp [getLsbD_packI11]

@[simp] theorem fieldImm7_packAI7 (a : Reg) (n : BitVec 7) (op : BitVec 5) : fieldImm7 (packAI7 a n op) = n :=
  extract_eq fun i hi => by simp [getLsbD_packAI7, show 5 + i < 12 by omega]

@[simp] theorem fieldA_packAI7 (a : Reg) (n : BitVec 7) (op : BitVec 5) : fieldA (packAI7 a n op) = a := by
  rw [fieldA, extract_eq (x := BitVec.ofFin a) fun i hi => by
    simp [getLsbD_packAI7, show ¬ 12 + i < 5 by omega]]

@[simp] theorem fieldImm4_packAI4 (a : Reg) (n : BitVec 4) (op : BitVec 5) : fieldImm4 (packAI4 a n op) = n :=
  extract_eq fun i hi => by
    simp [getLsbD_packAI4, show ¬ 8 + i < 5 by omega, show 8 + i < 12 by omega]

@[simp] theorem fieldA_packAI4 (a : Reg) (n : BitVec 4) (op : BitVec 5) : fieldA (packAI4 a n op) = a := by
  rw [fieldA, extract_eq (x := BitVec.ofFin a) fun i hi => by
    simp [getLsbD_packAI4, show ¬ 12 + i < 5 by omega, show ¬ 12 + i < 8 by omega]]

@[simp] theorem fieldA_packAB (a b : Reg) (op : BitVec 5) : fieldA (packAB a b op) = a :=
  fieldA_packAI4 a _ op

@[simp] theorem fieldB_packAB (a b : Reg) (op : BitVec 5) : fieldB (packAB a b op) = b := by
  show (fieldImm4 (packAI4 a (BitVec.ofFin b) op)).toFin = b
  rw [fieldImm4_packAI4]

end Sys2Proof
end

