-- ==== Sys2Proof/Laws/Memory.lean ====
section
/-! SUPPORT. Memory: read after write, frames, and that every operation keeps the canonical form. -/

namespace Sys2Proof.Machine

open Sys2Proof

/-- A byte outside the one written reads as before, in any memory. -/
theorem Memory.read_write_other (m : Memory) {a k : Nat} (v : Byte) (h : k ≠ a) :
    Memory.read (Memory.write m a v) k = Memory.read m k := by
  induction m with
  | nil => simp [Memory.write, Memory.read, Ne.symm h]
  | cons e m ih =>
    obtain ⟨j, b⟩ := e
    simp only [Memory.write]
    split
    · simp [Memory.read, Ne.symm h]
    · split
      · rename_i ha
        subst ha
        simp [Memory.read, Ne.symm h]
      · simp only [Memory.read, ih]

/-- The byte written reads back, in any memory. -/
@[simp] theorem Memory.read_write_same (m : Memory) (a : Nat) (v : Byte) : Memory.read (Memory.write m a v) a = some v := by
  induction m with
  | nil => simp [Memory.write, Memory.read]
  | cons e m ih =>
    obtain ⟨j, b⟩ := e
    simp only [Memory.write]
    split
    · simp [Memory.read]
    · split
      · simp [Memory.read]
      · rename_i ha
        simp [Memory.read, Ne.symm ha, ih]

/-- Where the entries of a memory after a write come from. -/
theorem Memory.mem_write {m : Memory} {a : Nat} {v : Byte} {e : Host.Cell} (h : e ∈ Memory.write m a v) :
    e ∈ m ∨ e = (a, v) := by
  induction m with
  | nil => simp_all [Memory.write]
  | cons x m ih =>
    obtain ⟨j, b⟩ := x
    simp only [Memory.write] at h
    split at h
    · exact (List.mem_cons.1 h).symm
    · split at h
      · exact (List.mem_cons.1 h).symm.imp (List.mem_cons_of_mem _) id
      · rcases List.mem_cons.1 h with h | h
        · exact .inl (h ▸ List.mem_cons_self ..)
        · exact (ih h).imp (List.mem_cons_of_mem _) id

/-- A write keeps the canonical form. -/
theorem Memory.write_wf {m : Memory} (hm : Memory.wf m) {a : Nat} (ha : a < 65536) (v : Byte) :
    Memory.wf (Memory.write m a v) := by
  refine ⟨?_, fun e he => ?_⟩
  · induction m with
    | nil => simp [Memory.write]
    | cons x m ih =>
      obtain ⟨j, b⟩ := x
      obtain ⟨hp, hb⟩ := hm
      have hp' := List.pairwise_cons.1 hp
      have htail : Memory.wf m := ⟨hp'.2, fun e he => hb e (List.mem_cons_of_mem _ he)⟩
      simp only [Memory.write]
      split
      · rename_i hlt
        refine List.pairwise_cons.2 ⟨fun e he => ?_, hp⟩
        rcases List.mem_cons.1 he with rfl | he
        · exact hlt
        · exact Nat.lt_trans hlt (hp'.1 e he)
      · split
        · rename_i hj
          exact List.pairwise_cons.2 ⟨fun e he => hj ▸ hp'.1 e he, hp'.2⟩
        · refine List.pairwise_cons.2 ⟨fun e he => ?_, ih htail⟩
          rcases Memory.mem_write he with he | rfl
          · exact hp'.1 e he
          · show j < a
            omega
  · rcases Memory.mem_write he with he | rfl
    · exact hm.2 e he
    · exact ha

/-- A byte that was put there is what a transfer sees. -/
theorem Memory.byte_of_read {m : Memory} {a : Nat} {v : Byte} (k : Storage) (h : Memory.read m a = some v) :
    Memory.byte k m a = v := by
  simp [Memory.byte, h]

/-- Where nothing was put, a transfer sees the free launch value. -/
theorem Memory.byte_unlisted {m : Memory} {a : Nat} (k : Storage) (h : Memory.read m a = Memory.unlisted) :
    Memory.byte k m a = Config.launchByte k a := by
  simp [Memory.byte, h, Memory.unlisted]

/-- Memories that read the same look the same to a transfer. -/
theorem Memory.byte_congr {m m' : Memory} {a : Nat} (k : Storage) (h : Memory.read m a = Memory.read m' a) :
    Memory.byte k m a = Memory.byte k m' a := by
  simp [Memory.byte, h]

/-! ### Half words -/

/-- The two bytes of a half word make it up again. -/
@[simp] theorem joinBytes_split (o : ByteOrder) (v : Word) : joinBytes o (firstByte o v) (secondByte o v) = v := by
  cases o <;> simp only [joinBytes, firstByte, secondByte] <;> refine BitVec.eq_of_getLsbD_eq fun i hi => ?_
  all_goals
    rw [BitVec.getLsbD_append]
    by_cases h : i < 8
    · simp [h]
    · simp [h, show i - 8 < 8 by omega, show 8 + (i - 8) = i by omega]

/-- The two bytes of a half word written. -/
theorem Memory.read_writeHalf (m : Memory) (o : ByteOrder) (a v : Word) :
    Memory.read (Memory.writeHalf o m a v) a.toNat = some (firstByte o v) ∧
      Memory.read (Memory.writeHalf o m a v) (a.toNat + 1) = some (secondByte o v) := by
  have hne : a.toNat ≠ a.toNat + 1 := by omega
  simp [Memory.writeHalf, Memory.read_write_other _ _ hne]

/-- The half word written reads back (20_memory.md R57). -/
@[simp] theorem Memory.readHalf_writeHalf (k : Storage) (m : Memory) (o : ByteOrder) (a v : Word) :
    Memory.readHalf k o (Memory.writeHalf o m a v) a = v := by
  have h := Memory.read_writeHalf m o a v
  rw [Memory.readHalf, Memory.byte_of_read k h.1, Memory.byte_of_read k h.2, joinBytes_split]

/-- A byte outside the half word written reads as before (R58). -/
theorem Memory.read_writeHalf_other (m : Memory) (o : ByteOrder) (a v : Word) {k : Nat}
    (h : k ≠ a.toNat ∧ k ≠ a.toNat + 1) : Memory.read (Memory.writeHalf o m a v) k = Memory.read m k := by
  rw [Memory.writeHalf, Memory.read_write_other _ _ h.2, Memory.read_write_other _ _ h.1]

/-- An even address has the address after it inside the space. -/
theorem even_succ_lt {a : Word} (h : isOdd a = false) : a.toNat + 1 < 65536 := by
  have h2 : a.toNat % 2 = 0 := by
    have : a.toNat.testBit 0 = false := by
      simpa [isOdd, BitVec.getElem_eq_testBit_toNat] using h
    simpa using this
  have := a.isLt
  omega

/-- Writing a half word at an even address keeps the canonical form. -/
theorem Memory.writeHalf_wf {m : Memory} (hm : Memory.wf m) (o : ByteOrder) {a : Word} (ha : isOdd a = false) (v : Word) :
    Memory.wf (Memory.writeHalf o m a v) :=
  Memory.write_wf (Memory.write_wf hm a.isLt _) (even_succ_lt ha) _

/-- `isOdd` as arithmetic. -/
theorem isOdd_iff (a : Word) : isOdd a = true ↔ a.toNat % 2 = 1 := by
  simp [isOdd, BitVec.getElem_eq_testBit_toNat]

/-- The next half word address is even with it. -/
@[simp] theorem isOdd_add_two (a : Word) : isOdd (a + 2) = isOdd a := by
  rw [Bool.eq_iff_iff, isOdd_iff, isOdd_iff, BitVec.toNat_add]
  simp

end Sys2Proof.Machine
end

