-- ==== Sys2Proof/Laws/State.lean ====
section
/-! SUPPORT. One lemma per field per update of State, so that no proof unfolds a record update; and what a register reads
as after each update. -/

namespace Sys2Proof.Machine

open Sys2Proof

/-- 16 is the only width the spec gives pc, so its arithmetic is that of words. -/
@[simp] theorem pcAdd_eq (c : Config) (a d : Word) : c.pcAdd a d = a + d := by
  apply BitVec.eq_of_toNat_eq
  simp [Config.pcAdd, PcWidth.bits, BitVec.toNat_add]

@[simp] theorem State.setReg_pc (s : State) (i : Reg) (v : Word) : (s.setReg i v).pc = s.pc := rfl
@[simp] theorem State.setReg_xpc (s : State) (i : Reg) (v : Word) : (s.setReg i v).xpc = s.xpc := rfl
@[simp] theorem State.setReg_flags (s : State) (i : Reg) (v : Word) : (s.setReg i v).flags = s.flags := rfl
@[simp] theorem State.setReg_skip (s : State) (i : Reg) (v : Word) : (s.setReg i v).skip = s.skip := rfl
@[simp] theorem State.setReg_imem (s : State) (i : Reg) (v : Word) : (s.setReg i v).imem = s.imem := rfl
@[simp] theorem State.setReg_dmem (s : State) (i : Reg) (v : Word) : (s.setReg i v).dmem = s.dmem := rfl
@[simp] theorem State.setReg_prefetch (s : State) (i : Reg) (v : Word) : (s.setReg i v).prefetch = s.prefetch := rfl
@[simp] theorem State.setReg_ibusReady (s : State) (i : Reg) (v : Word) : (s.setReg i v).ibusReady = s.ibusReady := rfl
@[simp] theorem State.setReg_dbusReady (s : State) (i : Reg) (v : Word) : (s.setReg i v).dbusReady = s.dbusReady := rfl
@[simp] theorem State.setReg_io (s : State) (i : Reg) (v : Word) : (s.setReg i v).io = s.io := rfl
@[simp] theorem State.setReg_draws (s : State) (i : Reg) (v : Word) : (s.setReg i v).draws = s.draws := rfl
@[simp] theorem State.setReg_cfg (s : State) (i : Reg) (v : Word) : (s.setReg i v).cfg = s.cfg := rfl
@[simp] theorem State.setReg_regs (s : State) (i : Reg) (v : Word) : (s.setReg i v).regs = s.regs.set i v := rfl

@[simp] theorem State.setFlags_pc (s : State) (f : Flags) : (s.setFlags f).pc = s.pc := rfl
@[simp] theorem State.setFlags_xpc (s : State) (f : Flags) : (s.setFlags f).xpc = s.xpc := rfl
@[simp] theorem State.setFlags_flags (s : State) (f : Flags) : (s.setFlags f).flags = f := rfl
@[simp] theorem State.setFlags_skip (s : State) (f : Flags) : (s.setFlags f).skip = s.skip := rfl
@[simp] theorem State.setFlags_imem (s : State) (f : Flags) : (s.setFlags f).imem = s.imem := rfl
@[simp] theorem State.setFlags_dmem (s : State) (f : Flags) : (s.setFlags f).dmem = s.dmem := rfl
@[simp] theorem State.setFlags_prefetch (s : State) (f : Flags) : (s.setFlags f).prefetch = s.prefetch := rfl
@[simp] theorem State.setFlags_ibusReady (s : State) (f : Flags) : (s.setFlags f).ibusReady = s.ibusReady := rfl
@[simp] theorem State.setFlags_dbusReady (s : State) (f : Flags) : (s.setFlags f).dbusReady = s.dbusReady := rfl
@[simp] theorem State.setFlags_io (s : State) (f : Flags) : (s.setFlags f).io = s.io := rfl
@[simp] theorem State.setFlags_draws (s : State) (f : Flags) : (s.setFlags f).draws = s.draws := rfl
@[simp] theorem State.setFlags_cfg (s : State) (f : Flags) : (s.setFlags f).cfg = s.cfg := rfl
@[simp] theorem State.setFlags_regs (s : State) (f : Flags) : (s.setFlags f).regs = s.regs := rfl

@[simp] theorem State.useDraws_pc (s : State) (k : Nat) : (s.useDraws k).pc = s.pc := rfl
@[simp] theorem State.useDraws_xpc (s : State) (k : Nat) : (s.useDraws k).xpc = s.xpc := rfl
@[simp] theorem State.useDraws_flags (s : State) (k : Nat) : (s.useDraws k).flags = s.flags := rfl
@[simp] theorem State.useDraws_skip (s : State) (k : Nat) : (s.useDraws k).skip = s.skip := rfl
@[simp] theorem State.useDraws_imem (s : State) (k : Nat) : (s.useDraws k).imem = s.imem := rfl
@[simp] theorem State.useDraws_dmem (s : State) (k : Nat) : (s.useDraws k).dmem = s.dmem := rfl
@[simp] theorem State.useDraws_prefetch (s : State) (k : Nat) : (s.useDraws k).prefetch = s.prefetch := rfl
@[simp] theorem State.useDraws_ibusReady (s : State) (k : Nat) : (s.useDraws k).ibusReady = s.ibusReady := rfl
@[simp] theorem State.useDraws_dbusReady (s : State) (k : Nat) : (s.useDraws k).dbusReady = s.dbusReady := rfl
@[simp] theorem State.useDraws_io (s : State) (k : Nat) : (s.useDraws k).io = s.io := rfl
@[simp] theorem State.useDraws_draws (s : State) (k : Nat) : (s.useDraws k).draws = s.draws + k := rfl
@[simp] theorem State.useDraws_cfg (s : State) (k : Nat) : (s.useDraws k).cfg = s.cfg := rfl
@[simp] theorem State.useDraws_regs (s : State) (k : Nat) : (s.useDraws k).regs = s.regs := rfl

@[simp] theorem State.advance_pc (s : State) : s.advance.pc = s.pc + 2 := pcAdd_eq s.cfg s.pc 2
@[simp] theorem State.advance_xpc (s : State) : s.advance.xpc = s.pc := rfl
@[simp] theorem State.advance_flags (s : State) : s.advance.flags = s.flags := rfl
@[simp] theorem State.advance_skip (s : State) : s.advance.skip = s.skip := rfl
@[simp] theorem State.advance_imem (s : State) : s.advance.imem = s.imem := rfl
@[simp] theorem State.advance_dmem (s : State) : s.advance.dmem = s.dmem := rfl
@[simp] theorem State.advance_prefetch (s : State) : s.advance.prefetch = none := rfl
@[simp] theorem State.advance_ibusReady (s : State) : s.advance.ibusReady = s.ibusReady := rfl
@[simp] theorem State.advance_dbusReady (s : State) : s.advance.dbusReady = s.dbusReady := rfl
@[simp] theorem State.advance_io (s : State) : s.advance.io = s.io := rfl
@[simp] theorem State.advance_draws (s : State) : s.advance.draws = s.draws := rfl
@[simp] theorem State.advance_cfg (s : State) : s.advance.cfg = s.cfg := rfl
@[simp] theorem State.advance_regs (s : State) : s.advance.regs = s.regs := rfl

@[simp] theorem State.jump_pc (s : State) (t : Word) : (s.jump t).pc = t := rfl
@[simp] theorem State.jump_xpc (s : State) (t : Word) : (s.jump t).xpc = s.pc := rfl
@[simp] theorem State.jump_flags (s : State) (t : Word) : (s.jump t).flags = s.flags := rfl
@[simp] theorem State.jump_skip (s : State) (t : Word) : (s.jump t).skip = s.skip := rfl
@[simp] theorem State.jump_imem (s : State) (t : Word) : (s.jump t).imem = s.imem := rfl
@[simp] theorem State.jump_dmem (s : State) (t : Word) : (s.jump t).dmem = s.dmem := rfl
@[simp] theorem State.jump_prefetch (s : State) (t : Word) : (s.jump t).prefetch = none := rfl
@[simp] theorem State.jump_ibusReady (s : State) (t : Word) : (s.jump t).ibusReady = s.ibusReady := rfl
@[simp] theorem State.jump_dbusReady (s : State) (t : Word) : (s.jump t).dbusReady = s.dbusReady := rfl
@[simp] theorem State.jump_io (s : State) (t : Word) : (s.jump t).io = s.io := rfl
@[simp] theorem State.jump_draws (s : State) (t : Word) : (s.jump t).draws = s.draws := rfl
@[simp] theorem State.jump_cfg (s : State) (t : Word) : (s.jump t).cfg = s.cfg := rfl
@[simp] theorem State.jump_regs (s : State) (t : Word) : (s.jump t).regs = s.regs := rfl

@[simp] theorem State.skipOver_pc (s : State) : s.skipOver.pc = s.pc + 2 := pcAdd_eq s.cfg s.pc 2
@[simp] theorem State.skipOver_xpc (s : State) : s.skipOver.xpc = s.pc := rfl
@[simp] theorem State.skipOver_flags (s : State) : s.skipOver.flags = s.flags := rfl
@[simp] theorem State.skipOver_skip (s : State) : s.skipOver.skip = false := rfl
@[simp] theorem State.skipOver_imem (s : State) : s.skipOver.imem = s.imem := rfl
@[simp] theorem State.skipOver_dmem (s : State) : s.skipOver.dmem = s.dmem := rfl
@[simp] theorem State.skipOver_prefetch (s : State) : s.skipOver.prefetch = none := rfl
@[simp] theorem State.skipOver_ibusReady (s : State) : s.skipOver.ibusReady = s.ibusReady := rfl
@[simp] theorem State.skipOver_dbusReady (s : State) : s.skipOver.dbusReady = s.dbusReady := rfl
@[simp] theorem State.skipOver_io (s : State) : s.skipOver.io = s.io := rfl
@[simp] theorem State.skipOver_draws (s : State) : s.skipOver.draws = s.draws := rfl
@[simp] theorem State.skipOver_cfg (s : State) : s.skipOver.cfg = s.cfg := rfl
@[simp] theorem State.skipOver_regs (s : State) : s.skipOver.regs = s.regs := rfl

@[simp] theorem State.setFlags_reg (s : State) (f : Flags) (r : Reg) : (s.setFlags f).reg r = s.reg r := rfl
@[simp] theorem State.useDraws_reg (s : State) (k : Nat) (r : Reg) : (s.useDraws k).reg r = s.reg r := rfl
@[simp] theorem State.advance_reg (s : State) (r : Reg) : s.advance.reg r = s.reg r := rfl
@[simp] theorem State.jump_reg (s : State) (t : Word) (r : Reg) : (s.jump t).reg r = s.reg r := rfl
@[simp] theorem State.skipOver_reg (s : State) (r : Reg) : s.skipOver.reg r = s.reg r := rfl

/-- A register written reads back what was written. -/
@[simp] theorem State.reg_setReg_same (s : State) (r : Reg) (v : Word) : (s.setReg r v).reg r = v := by
  simp [State.reg, State.setReg]

/-- A register not written keeps its value. -/
theorem State.reg_setReg_other (s : State) {i r : Reg} (v : Word) (h : r ≠ i) : (s.setReg i v).reg r = s.reg r := by
  have h' : (i : Nat) ≠ r := fun e => h (Fin.ext e.symm)
  simp [State.reg, State.setReg, h']

/-- Both cases in one, for simp. -/
theorem State.reg_setReg (s : State) (i r : Reg) (v : Word) :
    (s.setReg i v).reg r = if r = i then v else s.reg r := by
  by_cases h : r = i
  · subst h; simp
  · simp [h, State.reg_setReg_other s v h]

end Sys2Proof.Machine
end

