-- ==== Sys2Proof/Laws/Ops.lean ====
section
/-! SUPPORT. One lemma per shared operation that says once all it can do; proofs about instructions and steps cite these and
unfold nothing. -/

namespace Sys2Proof.Machine

open Sys2Proof

/-! ### The bus -/

/-- All that `fetch` can do. -/
theorem fetch_cases (s : State) :
    (isOdd s.xpc = true ∧ s.fetch = .bad (.misalignedFetch s.xpc s.xpc)) ∨
    (isOdd s.xpc = false ∧ s.ibusReady = false ∧ s.fetch = .wait) ∨
    (isOdd s.xpc = false ∧ s.ibusReady = true ∧ admits s.cfg.imemRegions s.xpc = true ∧
      s.fetch = .done (s.prefetch.getD (Memory.readHalf s.fetchStorage s.cfg.byteOrder s.fetchStore s.xpc))) ∨
    (isOdd s.xpc = false ∧ s.ibusReady = true ∧ admits s.cfg.imemRegions s.xpc = false ∧
      s.fetch = .bad (.fetchUnmapped s.xpc)) := by
  rw [State.fetch]
  cases h1 : isOdd s.xpc <;> cases h2 : s.ibusReady <;> cases h3 : admits s.cfg.imemRegions s.xpc <;> simp

/-- The word a step executes is the word fetched. -/
theorem executedWord_of_fetch {s : State} {w : Word} (h : s.fetch = .done w) (i : Instr) : s.executedWord i = w := by
  simp [State.executedWord, h]

/-- A fetch that answers a word answers the one `fetch_cases` names, on a ready bus. -/
theorem fetch_done {s : State} {w : Word} (h : s.fetch = .done w) :
    isOdd s.xpc = false ∧ s.ibusReady = true ∧ admits s.cfg.imemRegions s.xpc = true ∧
      w = s.prefetch.getD (Memory.readHalf s.fetchStorage s.cfg.byteOrder s.fetchStore s.xpc) := by
  rcases fetch_cases s with ⟨_, e⟩ | ⟨_, _, e⟩ | ⟨h1, h2, h3, e⟩ | ⟨_, _, _, e⟩ <;> rw [e] at h <;> simp_all

/-- All that `memRead` can do. -/
theorem memRead_cases (s : State) (ea : Word) :
    (isOdd ea = true ∧ s.memRead ea = .bad (.misalignedData ea s.xpc)) ∨
    (isOdd ea = false ∧ s.dbusReady = false ∧ s.memRead ea = .wait) ∨
    (isOdd ea = false ∧ s.dbusReady = true ∧ admits s.cfg.ioRegions ea = true ∧
      s.memRead ea = .done (Config.oracle s.draws ea, { s.useDraws 1 with io := s.io ++ [.read ea] })) ∨
    (isOdd ea = false ∧ s.dbusReady = true ∧ admits s.cfg.ioRegions ea = false ∧
      admits s.cfg.dmemRegions ea = true ∧ s.memRead ea = .done (Memory.readHalf .data s.cfg.byteOrder s.dmem ea, s)) ∨
    (isOdd ea = false ∧ s.dbusReady = true ∧ admits s.cfg.ioRegions ea = false ∧
      admits s.cfg.dmemRegions ea = false ∧ s.memRead ea = .bad (.dataUnmapped ea s.xpc)) := by
  rw [State.memRead]
  cases h1 : isOdd ea <;> cases h2 : s.dbusReady <;> cases h3 : admits s.cfg.ioRegions ea <;>
    cases h4 : admits s.cfg.dmemRegions ea <;> simp

/-- All that `memWrite` can do. -/
theorem memWrite_cases (s : State) (ea v : Word) :
    (isOdd ea = true ∧ s.memWrite ea v = .bad (.misalignedData ea s.xpc)) ∨
    (isOdd ea = false ∧ s.dbusReady = false ∧ s.memWrite ea v = .wait) ∨
    (isOdd ea = false ∧ s.dbusReady = true ∧ admits s.cfg.ioRegions ea = true ∧
      s.memWrite ea v = .done { s with io := s.io ++ [.write ea v] }) ∨
    (isOdd ea = false ∧ s.dbusReady = true ∧ admits s.cfg.ioRegions ea = false ∧
      admits s.cfg.dmemRegions ea = true ∧
      s.memWrite ea v = .done { s with dmem := Memory.writeHalf s.cfg.byteOrder s.dmem ea v }) ∨
    (isOdd ea = false ∧ s.dbusReady = true ∧ admits s.cfg.ioRegions ea = false ∧
      admits s.cfg.dmemRegions ea = false ∧ s.memWrite ea v = .bad (.dataUnmapped ea s.xpc)) := by
  rw [State.memWrite]
  cases h1 : isOdd ea <;> cases h2 : s.dbusReady <;> cases h3 : admits s.cfg.ioRegions ea <;>
    cases h4 : admits s.cfg.dmemRegions ea <;> simp

/-! ### The end of a step -/

/-- All that the end of ST's step does: `advance`, and in a race a free choice of the word already fetched. -/
theorem advanceAfterStore_cases (s t : State) (ea : Word) :
    (s.storeRaces ea = false ∧ s.advanceAfterStore t ea = t.advance) ∨
    (s.storeRaces ea = true ∧ s.cfg.unifiedMemory = true ∧ ea = s.pc ∧
      s.advanceAfterStore t ea = { t.advance with
        prefetch :=
          if Config.fetchSawOld s.draws then some (Memory.readHalf .data s.cfg.byteOrder s.dmem s.pc) else none
        draws := s.draws + 1 }) := by
  cases h : s.storeRaces ea
  · exact .inl ⟨rfl, by simp [State.advanceAfterStore, h]⟩
  · have h' : (((s.cfg.unifiedMemory = true ∧ ea = s.pc) ∧ admits s.cfg.imemRegions ea = true) ∧
        admits s.cfg.ioRegions ea = false) := by simpa [State.storeRaces] using h
    exact .inr ⟨rfl, h'.1.1.1, h'.1.1.2, by simp [State.advanceAfterStore, h]⟩

/-- Separate storage has no race. -/
theorem storeRaces_separate {s : State} (h : s.cfg.unifiedMemory = false) (ea : Word) : s.storeRaces ea = false := by
  simp [State.storeRaces, h]

/-- A delay slot in words: pc is not the address after xpc. -/
@[simp] theorem inSlot_eq (s : State) : s.inSlot = (s.pc != s.xpc + 2) := by simp [State.inSlot]

/-- BR and BSR with their addresses as sums of words. -/
theorem execBr_eq (n : BitVec 11) (s : State) : execBr n s = branchTo (s.pc + branchOffset s.cfg.branchScale n) s s := by
  simp [execBr]

theorem execBsr_eq (n : BitVec 11) (s : State) :
    execBsr n s = branchTo (s.pc + branchOffset s.cfg.branchScale n) (s.setReg linkReg (s.pc + 2)) s := by
  simp [execBsr]

/-- All that a write of npc can do. -/
theorem branchTo_cases (t : Word) (s' s : State) :
    (s.cfg.branchInSlot = .refuse ∧ s.inSlot = true ∧ branchTo t s' s = .fault (.branchInDelaySlot s.xpc s.pc)) ∨
    ((s.cfg.branchInSlot = .refuse → s.inSlot = false) ∧ isOdd t = true ∧
      branchTo t s' s = .fault (.misalignedFetch t s.xpc)) ∨
    ((s.cfg.branchInSlot = .refuse → s.inSlot = false) ∧ isOdd t = false ∧ branchTo t s' s = .next (s'.jump t)) := by
  rw [branchTo]
  cases h1 : s.cfg.branchInSlot <;> cases h2 : s.inSlot <;> cases h3 : isOdd t <;> simp

/-! ### The step -/

/-- All that a step can do (10_state.md R25, 60_exceptions.md R202). -/
theorem step_cases (s : State) :
    (s.fetch = .wait ∧ step s = .next s) ∨
    (∃ f, s.fetch = .bad f ∧ step s = .fault f) ∨
    (∃ w, s.fetch = .done w ∧ s.skip = true ∧ step s = .next s.skipOver) ∨
    (∃ w e, s.fetch = .done w ∧ s.skip = false ∧ decode s.cfg w = .error e ∧ step s = .fault (decodeFault e s.xpc)) ∨
    (∃ w i, s.fetch = .done w ∧ s.skip = false ∧ decode s.cfg w = .ok i ∧ step s = exec i s) := by
  simp only [step]
  cases hf : s.fetch with
  | wait => exact .inl ⟨rfl, rfl⟩
  | bad f => exact .inr (.inl ⟨f, rfl, rfl⟩)
  | done w =>
    cases hs : s.skip with
    | true => exact .inr (.inr (.inl ⟨w, rfl, rfl, by simp⟩))
    | false =>
      cases hd : decode s.cfg w with
      | error e => exact .inr (.inr (.inr (.inl ⟨w, e, rfl, rfl, hd, by simp [hd]⟩)))
      | ok i => exact .inr (.inr (.inr (.inr ⟨w, i, rfl, rfl, hd, by simp [hd]⟩)))

end Sys2Proof.Machine
end

