-- ==== Sys2Proof/Laws/Exec.lean ====
section
/-! SUPPORT. What exec and a step can do, said once: the shape of every next state. Invariants and whole-machine rules follow by
cases, with no unfolding of the meanings. -/

namespace Sys2Proof.Machine

open Sys2Proof

/-- The shapes of a next state of exec. -/
inductive NextShape (i : Instr) (s : State) : State → Prop where
  /-- OR, AND, XOR, `nop` -/
  | logic (a : Reg) (r : Word) (hg : flagGroupOf i = .logic) (hb : isBranch i = false) (hm : isMemory i = false) :
      NextShape i s (((s.setReg a r).setFlags (logicFlags r s.draws)).useDraws 2).advance
  /-- ADD, SUB, ADDI, SUBI -/
  | arith (a : Reg) (r : Word) (n v z c : Bool) (hg : flagGroupOf i = .arithmetic) (hb : isBranch i = false)
      (hm : isMemory i = false) :
      NextShape i s ((s.setReg a r).setFlags ⟨.known n, .known v, .known z, .known c⟩).advance
  /-- CMP, CMPI -/
  | compare (n v z c : Bool) (hg : flagGroupOf i = .arithmetic) (hb : isBranch i = false) (hm : isMemory i = false) :
      NextShape i s (s.setFlags ⟨.known n, .known v, .known z, .known c⟩).advance
  /-- NOT, MOV, MOVI, the shifts -/
  | move (a : Reg) (r : Word) (hg : flagGroupOf i = .none) (hb : isBranch i = false) (hm : isMemory i = false) :
      NextShape i s (s.setReg a r).advance
  /-- LD and ST waiting for the bus -/
  | wait (hg : flagGroupOf i = .none) (hb : isBranch i = false) (hm : isMemory i = true) (hw : s.dbusReady = false) :
      NextShape i s s
  /-- LD from memory -/
  | load (a b : Reg) (r : Word) (hi : i = .ld a b) : NextShape i s (s.setReg a r).advance
  /-- LD from a device -/
  | loadIo (a b : Reg) (r : Word) (ev : IoEvent) (hi : i = .ld a b) :
      NextShape i s (({ s.useDraws 1 with io := s.io ++ [ev] } : State).setReg a r).advance
  /-- ST to memory -/
  | store (a b : Reg) (ho : isOdd (s.reg b) = false) (hi : i = .st a b) :
      NextShape i s (s.advanceAfterStore
        { s with dmem := Memory.writeHalf s.cfg.byteOrder s.dmem (s.reg b) (s.reg a) } (s.reg b))
  /-- ST to a device -/
  | storeIo (a b : Reg) (ev : IoEvent) (hi : i = .st a b) :
      NextShape i s ({ s with io := s.io ++ [ev] } : State).advance
  /-- BR, RET -/
  | branch (t : Word) (hb : isBranch i = true) (ho : isOdd t = false) : NextShape i s (s.jump t)
  /-- BSR -/
  | link (t : Word) (hb : isBranch i = true) (ho : isOdd t = false) :
      NextShape i s ((s.setReg linkReg (s.cfg.pcAdd s.pc 2)).jump t)
  /-- IFS -/
  | ifs (code : BitVec 4) (b : Bool) (hi : i = .ifs code) : NextShape i s { s.advance with skip := b }

/-- A store to a device does not race with a fetch. -/
theorem storeRaces_device {s : State} {ea : Word} (h : admits s.cfg.ioRegions ea = true) : s.storeRaces ea = false := by
  simp [State.storeRaces, h]

/-- Every next state of exec has one of the shapes. -/
theorem exec_next_shape {i : Instr} {s t : State} (h : exec i s = .next t) : NextShape i s t := by
  cases i with
  | or a b => cases h; exact .logic a _ rfl rfl rfl
  | and a b => cases h; exact .logic a _ rfl rfl rfl
  | xor a b => cases h; exact .logic a _ rfl rfl rfl
  | nop => cases h; exact .logic 0 _ rfl rfl rfl
  | not a => cases h; exact .move a _ rfl rfl rfl
  | mov a b => cases h; exact .move a _ rfl rfl rfl
  | add a b => cases h; exact .arith a _ _ _ _ _ rfl rfl rfl
  | sub a b => cases h; exact .arith a _ _ _ _ _ rfl rfl rfl
  | cmp a b => cases h; exact .compare _ _ _ _ rfl rfl rfl
  | lsri a n => cases h; exact .move a _ rfl rfl rfl
  | asri a n => cases h; exact .move a _ rfl rfl rfl
  | roti a n => cases h; exact .move a _ rfl rfl rfl
  | movi a n => cases h; exact .move a _ rfl rfl rfl
  | addi a n => cases h; exact .arith a _ _ _ _ _ rfl rfl rfl
  | subi a n => cases h; exact .arith a _ _ _ _ _ rfl rfl rfl
  | cmpi a n => cases h; exact .compare _ _ _ _ rfl rfl rfl
  | lsli a n =>
    simp only [exec, execLsli] at h
    split at h
    · cases h; exact .move a _ rfl rfl rfl
    · simp at h
  | ld a b =>
    simp only [exec, execLd] at h
    rcases memRead_cases s (s.reg b) with ⟨_, e⟩ | ⟨_, hw, e⟩ | ⟨_, _, _, e⟩ | ⟨_, _, _, _, e⟩ | ⟨_, _, _, _, e⟩ <;>
      rw [e] at h
    · simp at h
    · cases h; exact .wait rfl rfl rfl hw
    · cases h; exact .loadIo a b _ _ rfl
    · cases h; exact .load a b _ rfl
    · simp at h
  | st a b =>
    simp only [exec, execSt] at h
    rcases memWrite_cases s (s.reg b) (s.reg a) with
      ⟨_, e⟩ | ⟨_, hw, e⟩ | ⟨_, _, hio, e⟩ | ⟨ho, _, _, _, e⟩ | ⟨_, _, _, _, e⟩ <;> rw [e] at h
    · simp at h
    · cases h; exact .wait rfl rfl rfl hw
    · cases h
      rw [State.advanceAfterStore, storeRaces_device hio]
      exact .storeIo a b _ rfl
    · cases h; exact .store a b ho rfl
    · simp at h
  | br n =>
    simp only [exec, execBr] at h
    rcases branchTo_cases (s.cfg.pcAdd s.pc (branchOffset s.cfg.branchScale n)) s s with ⟨_, _, e⟩ | ⟨_, _, e⟩ | ⟨_, ho, e⟩ <;>
      rw [e] at h
    · simp at h
    · simp at h
    · cases h; exact .branch _ rfl ho
  | bsr n =>
    simp only [exec, execBsr] at h
    rcases branchTo_cases (s.cfg.pcAdd s.pc (branchOffset s.cfg.branchScale n)) (s.setReg linkReg (s.cfg.pcAdd s.pc 2)) s with
      ⟨_, _, e⟩ | ⟨_, _, e⟩ | ⟨_, ho, e⟩ <;> rw [e] at h
    · simp at h
    · simp at h
    · cases h; exact .link _ rfl ho
  | ret =>
    simp only [exec, execRet] at h
    rcases branchTo_cases (s.reg linkReg) s s with ⟨_, _, e⟩ | ⟨_, _, e⟩ | ⟨_, ho, e⟩ <;> rw [e] at h
    · simp at h
    · simp at h
    · cases h; exact .branch _ rfl ho
  | ifs code =>
    simp only [exec, execIfs] at h
    split at h
    · simp at h
    · split at h
      · simp at h
      · cases h; exact .ifs code _ rfl

/-- Every next state of a step: the core waits, a word is skipped, or the executed instruction's shape. -/
theorem step_next_cases {s t : State} (h : step s = .next t) :
    (s.fetch = .wait ∧ t = s) ∨ (∃ w, s.fetch = .done w ∧ s.skip = true ∧ t = s.skipOver) ∨
    (∃ i, s.executes i ∧ exec i s = .next t ∧ NextShape i s t) := by
  rcases step_cases s with ⟨hf, e⟩ | ⟨f, _, e⟩ | ⟨w, hf, hs, e⟩ | ⟨w, x, _, _, _, e⟩ | ⟨w, i, hf, hs, hd, e⟩ <;> rw [e] at h
  · cases h; exact .inl ⟨hf, rfl⟩
  · simp at h
  · cases h; exact .inr (.inl ⟨w, hf, hs, rfl⟩)
  · simp at h
  · exact .inr (.inr ⟨i, ⟨hs, w, hf, hd⟩, h, exec_next_shape h⟩)

end Sys2Proof.Machine
end

