-- ==== Sys2Proof/Laws/Flags.lean ====
section
/-! SUPPORT. The flag functions in terms of numbers (41_move_arith.md R131, R132), and the conditions. -/

namespace Sys2Proof.Machine

open Sys2Proof

/-- Bit 15 is the sign: the pattern is at least 2^15. -/
theorem bit15_eq (v : Word) : v[15] = decide (32768 ≤ v.toNat) := by
  have := v.isLt
  rw [BitVec.getElem_eq_testBit_toNat, Nat.testBit_eq_decide_div_mod_eq, decide_eq_decide]
  omega

/-- The signed reading of a pattern (00_scope.md R8). -/
theorem toInt_eq (v : Word) : v.toInt = if v.toNat < 32768 then (v.toNat : Int) else v.toNat - 65536 := by
  rw [BitVec.toInt_eq_toNat_cond]
  split <;> split <;> omega

/-- N as a number's half of the range. -/
theorem nOf_eq (r : Word) : nOf r = .known (decide (32768 ≤ r.toNat)) := by rw [nOf, bit15_eq]

/-- Z as a number. -/
theorem zOf_eq (r : Word) : zOf r = .known (decide (r.toNat = 0)) := by
  rw [zOf, Flag.known.injEq, Bool.eq_iff_iff]
  simp [BitVec.toNat_eq]

/-- The result inside `addFlags` is the 16-bit sum. -/
theorem add_low (a b : Word) : ((a.setWidth 17 + b.setWidth 17 : BitVec 17).setWidth 16 : Word) = a + b := by
  apply BitVec.eq_of_toNat_eq
  have := a.isLt
  have := b.isLt
  simp [BitVec.toNat_setWidth, BitVec.toNat_add]

/-- C of an addition: the 17-bit sum passes 65535. -/
theorem add_carry (a b : Word) :
    (a.setWidth 17 + b.setWidth 17 : BitVec 17)[16] = decide (65535 < a.toNat + b.toNat) := by
  have ha := a.isLt
  have hb := b.isLt
  have h : (a.setWidth 17 + b.setWidth 17 : BitVec 17).toNat = a.toNat + b.toNat := by
    rw [BitVec.toNat_add, BitVec.toNat_setWidth, BitVec.toNat_setWidth]
    omega
  rw [BitVec.getElem_eq_testBit_toNat, h, Nat.testBit_eq_decide_div_mod_eq, decide_eq_decide]
  omega

/-- V of an addition: the signed sum does not fit 16 bits. -/
theorem add_overflow (a b : Word) :
    (a[15] == b[15] && (a + b)[15] != a[15]) =
      decide (a.toInt + b.toInt < -32768 ∨ 32767 < a.toInt + b.toInt) := by
  have ha := a.isLt
  have hb := b.isLt
  rw [bit15_eq, bit15_eq, bit15_eq, BitVec.toNat_add, toInt_eq, toInt_eq, Bool.eq_iff_iff]
  simp only [Bool.and_eq_true, beq_iff_eq, bne_iff_ne, ne_eq, decide_eq_decide, decide_eq_true_eq]
  split <;> split <;> omega

/-- The 16-bit difference as a number. -/
theorem sub_toNat (a b : Word) : (a - b).toNat = (a.toNat + 65536 - b.toNat) % 65536 := by
  have ha := a.isLt
  have hb := b.isLt
  rw [BitVec.toNat_sub]
  omega

/-- V of a subtraction: the signed difference does not fit 16 bits. -/
theorem sub_overflow (a b : Word) :
    (a[15] != b[15] && (a - b)[15] != a[15]) =
      decide (a.toInt - b.toInt < -32768 ∨ 32767 < a.toInt - b.toInt) := by
  have ha := a.isLt
  have hb := b.isLt
  rw [bit15_eq, bit15_eq, bit15_eq, sub_toNat, toInt_eq, toInt_eq, Bool.eq_iff_iff]
  simp only [Bool.and_eq_true, bne_iff_ne, ne_eq, decide_eq_decide, decide_eq_true_eq]
  split <;> split <;> omega

/-! ### Conditions -/

/-- With `UNDEF_FLAG_READ` = free a condition always goes one way. -/
theorem condHolds_free (k : Cond) (f : Flags) :
    condHolds .free k f = some (condEval k f.n.value f.v.value f.z.value f.c.value) := by
  simp [condHolds]

/-- A condition none of whose flags is undefined goes one way, whatever `UNDEF_FLAG_READ` is. -/
theorem condHolds_defined (m : UndefFlagRead) {k : Cond} {f : Flags} (h : condReadsUndef k f = false) :
    condHolds m k f = some (condEval k f.n.value f.v.value f.z.value f.c.value) := by
  simp [condHolds, h]

/-- With `UNDEF_FLAG_READ` = fault a condition that names an undefined flag has no answer. -/
theorem condHolds_fault {k : Cond} {f : Flags} (h : condReadsUndef k f = true) : condHolds .fault k f = none := by
  simp [condHolds, h]

end Sys2Proof.Machine
end

