-- ==== Sys2Proof/Laws/PerInstr.lean ====
section
/-! SUPPORT. The claims made per instruction: one lemma per constructor. -/

namespace Sys2Proof.Laws.EncodeXBitsZero

open Sys2Proof

/-- The word of an instruction has its opcode in bits 4:0 (30_encoding.md R81, R89) and 0 in every bit it does not use
(R93). -/
def Statement (i : Instr) : Prop :=
  ∀ c : Config, opcodeField (encode c i) = opcodeOf c i ∧ encode c i &&& xMask i = 0

/-- The unused bits 7:5 of FAB and FAI4, and the fields of them that an instruction leaves 0. -/
theorem packAI4_and (a : Reg) (n : BitVec 4) (op : BitVec 5) (m : Word)
    (ha : m.extractLsb' 12 4 = 0 ∨ a = 0) (hn : m.extractLsb' 8 4 = 0 ∨ n = 0) (ho : m.extractLsb' 0 5 = 0) :
    packAI4 a n op &&& m = 0 := by
  refine BitVec.eq_of_getLsbD_eq fun k hk => ?_
  have bit : ∀ {p w : Nat}, m.extractLsb' p w = 0 → p ≤ k → k < p + w → m.getLsbD k = false := fun {p w} h h1 h2 => by
    have := congrArg (fun x => x.getLsbD (k - p)) h
    simpa [show k - p < w by omega, show p + (k - p) = k by omega] using this
  rw [BitVec.getLsbD_and, getLsbD_packAI4]
  split
  · rw [bit ho (by omega) (by omega)]; simp
  · split
    · simp
    · split
      · rcases hn with h | rfl
        · rw [bit h (by omega) (by omega)]; simp
        · simp
      · rcases ha with h | rfl
        · rw [bit h (by omega) (by omega)]; simp
        · simp

theorem or (a b : Reg) : Statement (.or a b) :=
  fun _ => ⟨by simp [encode], packAI4_and _ _ _ _ (.inl (by simp [xMask])) (.inl (by simp [xMask])) (by simp [xMask])⟩

theorem and (a b : Reg) : Statement (.and a b) :=
  fun _ => ⟨by simp [encode], packAI4_and _ _ _ _ (.inl (by simp [xMask])) (.inl (by simp [xMask])) (by simp [xMask])⟩

theorem xor (a b : Reg) : Statement (.xor a b) :=
  fun _ => ⟨by simp [encode], packAI4_and _ _ _ _ (.inl (by simp [xMask])) (.inl (by simp [xMask])) (by simp [xMask])⟩

theorem not (a : Reg) : Statement (.not a) :=
  fun _ => ⟨by simp [encode], packAI4_and _ _ _ _ (.inl (by simp [xMask])) (.inr rfl) (by simp [xMask])⟩

theorem nop : Statement .nop :=
  fun _ => ⟨by simp [encode], packAI4_and _ _ _ _ (.inr rfl) (.inr rfl) (by simp [xMask])⟩

theorem mov (a b : Reg) : Statement (.mov a b) :=
  fun _ => ⟨by simp [encode], packAI4_and _ _ _ _ (.inl (by simp [xMask])) (.inl (by simp [xMask])) (by simp [xMask])⟩

theorem add (a b : Reg) : Statement (.add a b) :=
  fun _ => ⟨by simp [encode], packAI4_and _ _ _ _ (.inl (by simp [xMask])) (.inl (by simp [xMask])) (by simp [xMask])⟩

theorem sub (a b : Reg) : Statement (.sub a b) :=
  fun _ => ⟨by simp [encode], packAI4_and _ _ _ _ (.inl (by simp [xMask])) (.inl (by simp [xMask])) (by simp [xMask])⟩

theorem cmp (a b : Reg) : Statement (.cmp a b) :=
  fun _ => ⟨by simp [encode], packAI4_and _ _ _ _ (.inl (by simp [xMask])) (.inl (by simp [xMask])) (by simp [xMask])⟩

theorem lsli (a : Reg) (n : BitVec 4) : Statement (.lsli a n) :=
  fun _ => ⟨by simp [encode], packAI4_and _ _ _ _ (.inl (by simp [xMask])) (.inl (by simp [xMask])) (by simp [xMask])⟩

theorem lsri (a : Reg) (n : BitVec 4) : Statement (.lsri a n) :=
  fun _ => ⟨by simp [encode], packAI4_and _ _ _ _ (.inl (by simp [xMask])) (.inl (by simp [xMask])) (by simp [xMask])⟩

theorem asri (a : Reg) (n : BitVec 4) : Statement (.asri a n) :=
  fun _ => ⟨by simp [encode], packAI4_and _ _ _ _ (.inl (by simp [xMask])) (.inl (by simp [xMask])) (by simp [xMask])⟩

theorem roti (a : Reg) (n : BitVec 4) : Statement (.roti a n) :=
  fun _ => ⟨by simp [encode], packAI4_and _ _ _ _ (.inl (by simp [xMask])) (.inl (by simp [xMask])) (by simp [xMask])⟩

theorem movi (a : Reg) (n : BitVec 7) : Statement (.movi a n) :=
  fun c => ⟨by simp [encode], by simp [xMask]⟩

theorem addi (a : Reg) (n : BitVec 7) : Statement (.addi a n) :=
  fun c => ⟨by simp [encode], by simp [xMask]⟩

theorem subi (a : Reg) (n : BitVec 7) : Statement (.subi a n) :=
  fun c => ⟨by simp [encode], by simp [xMask]⟩

theorem cmpi (a : Reg) (n : BitVec 7) : Statement (.cmpi a n) :=
  fun c => ⟨by simp [encode], by simp [xMask]⟩

theorem ld (a b : Reg) : Statement (.ld a b) :=
  fun _ => ⟨by simp [encode], packAI4_and _ _ _ _ (.inl (by simp [xMask])) (.inl (by simp [xMask])) (by simp [xMask])⟩

theorem st (a b : Reg) : Statement (.st a b) :=
  fun _ => ⟨by simp [encode], packAI4_and _ _ _ _ (.inl (by simp [xMask])) (.inl (by simp [xMask])) (by simp [xMask])⟩

theorem br (n : BitVec 11) : Statement (.br n) :=
  fun c => ⟨by simp [encode], by simp [xMask]⟩

theorem bsr (n : BitVec 11) : Statement (.bsr n) :=
  fun c => ⟨by simp [encode], by simp [xMask]⟩

theorem ret : Statement .ret :=
  fun _ => ⟨by simp [encode], packAI4_and _ _ _ _ (.inr rfl) (.inr rfl) (by simp [xMask])⟩

theorem ifs (code : BitVec 4) : Statement (.ifs code) :=
  fun _ => ⟨by simp [encode], packAI4_and _ _ _ _ (.inr rfl) (.inl (by simp [xMask])) (by simp [xMask])⟩

end Sys2Proof.Laws.EncodeXBitsZero
end

