-- ==== Sys2Proof/Tests/Slice0.lean ====
section
/-! SUPPORT. The model's own tests. Every expected result is from spec/95_test_vectors.md (the vector's number stands in the
test's name) or from the rule a comment names. Then, for every statement with hypotheses, a witness that meets them. -/

namespace Sys2Proof.Tests

open Sys2Proof Sys2Proof.Machine

/-! ### Helpers -/

/-- The state a vector starts from: xpc = 0x0100, pc = 0x0102, skip = 0, the registers listed, the rest 0. -/
def start (c : Config) (rs : List (Reg × Word)) : State :=
  rs.foldl (fun s x => s.setReg x.1 x.2) { State.resetWith c with xpc := 0x0100, pc := 0x0102 }

/-- The same with flags N V Z C; `none` is undefined. -/
def startF (c : Config) (rs : List (Reg × Word)) (n v z f : Option Bool) : State :=
  let g (k : Nat) : Option Bool → Flag
    | some b => .known b
    | none => .undef k
  { start c rs with flags := ⟨g 0 n, g 1 v, g 2 z, g 3 f⟩ }

/-- One step on the word `w` at xpc. -/
def run (w : Nat) (s : State) : Host.Outcome State Fault Refusal := step (s.withFetchWord 16 w)

/-- The outcome is a next state with `p`. -/
def ok (o : Host.Outcome State Fault Refusal) (p : State → Bool) : Bool :=
  match o with
  | .next t => p t
  | _ => false

/-- The outcome is the fault `f`. -/
def bad (o : Host.Outcome State Fault Refusal) (f : Fault) : Bool :=
  match o with
  | .fault g => g == f
  | _ => false

/-- The flags N V Z C; `none` is undefined. -/
def flagsAre (s : State) (n v z f : Option Bool) : Bool :=
  let same : Flag → Option Bool → Bool
    | .known b, some b' => b == b'
    | .undef _, none => true
    | _, _ => false
  same s.flags.n n && same s.flags.v v && same s.flags.z z && same s.flags.c f

/-- xpc and pc. -/
def at' (s : State) (x p : Word) : Bool := s.xpc == x && s.pc == p

/-- The parameters of spec/95_test_vectors.md. -/
abbrev spec : Config := Config.specDefault

/-- The same with undefined flags read as free values (log 5). -/
abbrev free : Config := { spec with undefFlagRead := .free }

/-- Instruction memory with words at the given addresses. -/
def withCode (s : State) (xs : List (Word × Word)) : State :=
  xs.foldl (fun s x => { s with imem := Memory.writeHalf s.cfg.byteOrder s.imem x.1 x.2 }) s

/-! ### Decoding: words written out from the encodings, one for each constructor (E2, E3, V193 to V201) -/

theorem test_decode_or : decodeTableWord 16 0x9200 = some (.or 9 2) := by decide
theorem test_decode_and : decodeTableWord 16 0xE001 = some (.and 14 0) := by decide
theorem test_decode_xor : decodeTableWord 16 0x0602 = some (.xor 0 6) := by decide
theorem test_decode_not : decodeTableWord 16 0x3003 = some (.not 3) := by decide
theorem test_decode_nop : decodeTableWord 16 0x0000 = some (.nop) := by decide
theorem test_decode_mov : decodeTableWord 16 0x8204 = some (.mov 8 2) := by decide
theorem test_decode_add : decodeTableWord 16 0x4505 = some (.add 4 5) := by decide
theorem test_decode_sub : decodeTableWord 16 0x2006 = some (.sub 2 0) := by decide
theorem test_decode_cmp : decodeTableWord 16 0x9307 = some (.cmp 9 3) := by decide
theorem test_decode_lsli : decodeTableWord 16 0xB308 = some (.lsli 11 3) := by decide
theorem test_decode_lsri : decodeTableWord 16 0x0509 = some (.lsri 0 5) := by decide
theorem test_decode_asri : decodeTableWord 16 0x690A = some (.asri 6 9) := by decide
theorem test_decode_roti : decodeTableWord 16 0x9B0B = some (.roti 9 11) := by decide
theorem test_decode_movi : decodeTableWord 16 0xC52C = some (.movi 12 41) := by decide
theorem test_decode_addi : decodeTableWord 16 0x806D = some (.addi 8 3) := by decide
theorem test_decode_subi : decodeTableWord 16 0x97EE = some (.subi 9 63) := by decide
theorem test_decode_cmpi : decodeTableWord 16 0x9D0F = some (.cmpi 9 0b1101000) := by decide
theorem test_decode_ld : decodeTableWord 16 0x5610 = some (.ld 5 6) := by decide
theorem test_decode_st : decodeTableWord 16 0xF814 = some (.st 15 8) := by decide
theorem test_decode_br : decodeTableWord 16 0x00D8 = some (.br 6) := by decide
theorem test_decode_bsr : decodeTableWord 16 0x0159 = some (.bsr 10) := by decide
theorem test_decode_ret : decodeTableWord 16 0x001A = some (.ret) := by decide
theorem test_decode_ifs : decodeTableWord 16 0x061F = some (.ifs 6) := by decide

/-- Unused bits are ignored (R93): V193, V195, V117, V134, and `br` with a negative field (V123). -/
theorem test_decode_unused_bits :
    decodeTableWord 16 0x30E3 = some (.not 3) ∧ decodeTableWord 16 0xF0FF = some (.ifs 0) ∧
    decodeTableWord 16 0x56F0 = some (.ld 5 6) ∧ decodeTableWord 16 0xFFFA = some .ret ∧
    decodeTableWord 16 0x00E0 = some .nop ∧ decodeTableWord 16 0xFFD8 = some (.br (-2)) := by decide

/-- Unassigned opcodes (R94; V181 to V191). -/
theorem test_decode_unassigned :
    [0x0011, 0x0012, 0x0013, 0x0015, 0x0016, 0x0017, 0x001B, 0x001C, 0x001D, 0x001E, 0xFFF1].all
      (fun w => decodeTableWord 16 w == none) = true := by decide

/-- V187: the other candidate of RET. -/
theorem test_decode_ret_opcode :
    decode { spec with retOpcode := .op11011 } 0x001B = .ok .ret ∧
    decode { spec with retOpcode := .op11011 } 0x001A = .error (.illegalInstruction 0x001A) := ⟨rfl, rfl⟩

/-- V193, V194 with `STRICT_X_BITS` = true; an illegal opcode is found first (R202). -/
theorem test_decode_strict :
    decode { spec with strictXBits := true } 0x30E3 = .error (.reservedBits 0x30E3) ∧
    decode { spec with strictXBits := true } 0xF01F = .error (.reservedBits 0xF01F) ∧
    decode { spec with strictXBits := true } 0x3003 = .ok (.not 3) ∧
    decode { spec with strictXBits := true } 0xFFF1 = .error (.illegalInstruction 0xFFF1) := ⟨rfl, rfl, rfl, rfl⟩

/-- Bytes: the low byte first with `BYTE_ORDER` = little, last with big (R54); one byte is no word. -/
theorem test_decode_bytes :
    decodeBytes spec [0x05, 0x45, 0xAA] = .ok (.add 4 5, [0xAA]) ∧
    decodeBytes { spec with byteOrder := .big } [0x45, 0x05] = .ok (.add 4 5, []) ∧
    decodeBytes spec [0x05] = .error .truncated := ⟨rfl, rfl, rfl⟩

/-- The encoder on the examples of E3. -/
theorem test_encode :
    encode spec (.add 4 5) = 0x4505 ∧ encode spec (.cmpi 9 0b1101000) = 0x9D0F ∧ encode spec (.lsli 11 3) = 0xB308 ∧
    encode spec (.br (-2)) = 0xFFD8 ∧ encode spec .ret = 0x001A ∧ encode spec (.ifs 8) = 0x081F := by decide

/-! ### WellFormed: an ill-formed term for each check -/

theorem test_wf_or_r0_r0_refused : Instr.wf (.or 0 0) = false ∧ Instr.wf (.or 0 1) = true := by decide

theorem test_wf_region_refused : Region.wf ⟨5, 4⟩ = false ∧ Region.wf ⟨0, 65536⟩ = false ∧ Region.wf ⟨0, 65535⟩ = true := by
  decide

theorem test_wf_config_refused :
    Config.wf { spec with resetPc := 0x0001 } = false ∧
    Config.wf { spec with ccHigh := List.replicate 9 none } = false ∧
    Config.wf { spec with imemRegions := [⟨5, 4⟩] } = false ∧
    Config.wf { spec with dmemRegions := [⟨0, 65536⟩] } = false ∧
    Config.wf { spec with ioRegions := [⟨1, 0⟩] } = false ∧
    Config.wf spec = true ∧ Config.wf Config.running = true := by decide

/-! ### One step of each instruction -/

theorem test_V1_or : ok (run 0x9200 (startF spec [(2, 0x8001), (9, 0x00F0)] (some false) (some true) (some false) (some true)))
    (fun t => t.reg 2 == 0x8001 && t.reg 9 == 0x80F1 && flagsAre t (some true) none (some false) none && at' t 0x0102 0x0104) = true := by decide

theorem test_V5_and : ok (run 0x1201 (startF spec [(1, 0xAAAA), (2, 0x5555)] (some true) (some true) (some false) (some true)))
    (fun t => t.reg 1 == 0x0000 && t.reg 2 == 0x5555 && flagsAre t (some false) none (some true) none && at' t 0x0102 0x0104) = true := by decide

theorem test_V6_and : ok (run 0x4401 (startF spec [(4, 0x8000)] (some false) (some false) (some true) (some false)))
    (fun t => t.reg 4 == 0x8000 && flagsAre t (some true) none (some false) none && at' t 0x0102 0x0104) = true := by decide

theorem test_V8_xor : ok (run 0x5502 (startF spec [(5, 0x1234)] (some true) (some true) (some false) (some true)))
    (fun t => t.reg 5 == 0x0000 && flagsAre t (some false) none (some true) none && at' t 0x0102 0x0104) = true := by decide

theorem test_V9_xor : ok (run 0x1202 (startF spec [(1, 0x7FFF), (2, 0xFFFF)] (some false) (some false) (some true) (some true)))
    (fun t => t.reg 1 == 0x8000 && t.reg 2 == 0xFFFF && flagsAre t (some true) none (some false) none && at' t 0x0102 0x0104) = true := by decide

theorem test_V12_not : ok (run 0x3FE3 (startF spec [(3, 0xFFFF)] (some false) (some false) (some false) (some false)))
    (fun t => t.reg 3 == 0x0000 && flagsAre t (some false) (some false) (some false) (some false) && at' t 0x0102 0x0104) = true := by decide

theorem test_V11_not : ok (run 0x3003 (startF spec [(3, 0x0000)] (some false) (some true) (some false) none))
    (fun t => t.reg 3 == 0xFFFF && flagsAre t (some false) (some true) (some false) none && at' t 0x0102 0x0104) = true := by decide

theorem test_V13_nop : ok (run 0x0000 (startF spec [(0, 0x8000)] (some false) (some true) (some true) (some true)))
    (fun t => t.reg 0 == 0x8000 && flagsAre t (some true) none (some false) none && at' t 0x0102 0x0104) = true := by decide

theorem test_V14_nop : ok (run 0x0000 (startF spec [(0, 0x0000)] (some true) (some false) (some false) (some false)))
    (fun t => t.reg 0 == 0x0000 && flagsAre t (some false) none (some true) none && at' t 0x0102 0x0104) = true := by decide

theorem test_V20_mov : ok (run 0x8204 (startF spec [(2, 0x1234)] (some true) none (some false) (some true)))
    (fun t => t.reg 2 == 0x1234 && t.reg 8 == 0x1234 && flagsAre t (some true) none (some false) (some true) && at' t 0x0102 0x0104) = true := by decide

theorem test_V23_add : ok (run 0x4505 (startF spec [(4, 0xFFFF), (5, 0x0001)] none none none none))
    (fun t => t.reg 4 == 0x0000 && t.reg 5 == 0x0001 && flagsAre t (some false) (some false) (some true) (some true) && at' t 0x0102 0x0104) = true := by decide

theorem test_V24_add : ok (run 0x4505 (startF spec [(4, 0x7FFF), (5, 0x0001)] none none none none))
    (fun t => t.reg 4 == 0x8000 && t.reg 5 == 0x0001 && flagsAre t (some true) (some true) (some false) (some false) && at' t 0x0102 0x0104) = true := by decide

theorem test_V34_sub : ok (run 0x2006 (startF spec [(0, 0xFFFF), (2, 0x7FFF)] none none none none))
    (fun t => t.reg 0 == 0xFFFF && t.reg 2 == 0x8000 && flagsAre t (some true) (some true) (some false) (some true) && at' t 0x0102 0x0104) = true := by decide

theorem test_V38_sub : ok (run 0x2206 (startF spec [(2, 0x4321)] none none none none))
    (fun t => t.reg 2 == 0x0000 && flagsAre t (some false) (some false) (some true) (some false) && at' t 0x0102 0x0104) = true := by decide

theorem test_V41_cmp : ok (run 0x9307 (startF spec [(3, 0x0001), (9, 0x0002)] none none none none))
    (fun t => t.reg 3 == 0x0001 && t.reg 9 == 0x0002 && flagsAre t (some false) (some false) (some false) (some false) && at' t 0x0102 0x0104) = true := by decide

theorem test_V44_cmp : ok (run 0x9307 (startF spec [(3, 0xFFFF), (9, 0x0000)] none none none none))
    (fun t => t.reg 3 == 0xFFFF && t.reg 9 == 0x0000 && flagsAre t (some false) (some false) (some false) (some true) && at' t 0x0102 0x0104) = true := by decide

theorem test_V50_lsli : ok (run 0xB308 (startF spec [(11, 0x0007)] (some true) (some false) (some true) (some false)))
    (fun t => t.reg 11 == 0xE000 && flagsAre t (some true) (some false) (some true) (some false) && at' t 0x0102 0x0104) = true := by decide

theorem test_V51_lsli : ok (run 0xBF08 (startF spec [(11, 0x8001)] (some true) (some false) (some true) (some false)))
    (fun t => t.reg 11 == 0x0002 && flagsAre t (some true) (some false) (some true) (some false) && at' t 0x0102 0x0104) = true := by decide

theorem test_V56_lsri : ok (run 0x0009 (startF spec [(0, 0xABCD)] (some true) (some false) (some true) (some false)))
    (fun t => t.reg 0 == 0xABCD && flagsAre t (some true) (some false) (some true) (some false) && at' t 0x0102 0x0104) = true := by decide

theorem test_V57_lsri : ok (run 0x0F09 (startF spec [(0, 0x8000)] (some true) (some false) (some true) (some false)))
    (fun t => t.reg 0 == 0x0001 && flagsAre t (some true) (some false) (some true) (some false) && at' t 0x0102 0x0104) = true := by decide

theorem test_V63_asri : ok (run 0x6F0A (startF spec [(6, 0x8000)] (some true) (some false) (some true) (some false)))
    (fun t => t.reg 6 == 0xFFFF && flagsAre t (some true) (some false) (some true) (some false) && at' t 0x0102 0x0104) = true := by decide

theorem test_V66_asri : ok (run 0x640A (startF spec [(6, 0x7FF0)] (some true) (some false) (some true) (some false)))
    (fun t => t.reg 6 == 0x07FF && flagsAre t (some true) (some false) (some true) (some false) && at' t 0x0102 0x0104) = true := by decide

theorem test_V68_roti : ok (run 0x9B0B (startF spec [(9, 0x1234)] (some true) (some false) (some true) (some false)))
    (fun t => t.reg 9 == 0x4682 && flagsAre t (some true) (some false) (some true) (some false) && at' t 0x0102 0x0104) = true := by decide

theorem test_V69_roti : ok (run 0x900B (startF spec [(9, 0x1234)] (some true) (some false) (some true) (some false)))
    (fun t => t.reg 9 == 0x1234 && flagsAre t (some true) (some false) (some true) (some false) && at' t 0x0102 0x0104) = true := by decide

theorem test_V82_movi : ok (run 0xC80C (startF spec [] (some true) (some false) (some true) none))
    (fun t => t.reg 12 == 0xFFC0 && flagsAre t (some true) (some false) (some true) none && at' t 0x0102 0x0104) = true := by decide

theorem test_V81_movi : ok (run 0xC7EC (startF spec [] (some true) (some false) (some true) none))
    (fun t => t.reg 12 == 0x003F && flagsAre t (some true) (some false) (some true) none && at' t 0x0102 0x0104) = true := by decide

theorem test_V86_addi : ok (run 0x802D (startF spec [(8, 0xFFFF)] none none none none))
    (fun t => t.reg 8 == 0x0000 && flagsAre t (some false) (some false) (some true) (some true) && at' t 0x0102 0x0104) = true := by decide

theorem test_V88_addi : ok (run 0x8FED (startF spec [(8, 0xFF80)] none none none none))
    (fun t => t.reg 8 == 0xFFFF && flagsAre t (some true) (some false) (some false) (some false) && at' t 0x0102 0x0104) = true := by decide

theorem test_V92_subi : ok (run 0x97EE (startF spec [(9, 0x0040)] none none none none))
    (fun t => t.reg 9 == 0x0001 && flagsAre t (some false) (some false) (some false) (some false) && at' t 0x0102 0x0104) = true := by decide

theorem test_V97_subi : ok (run 0x9FEE (startF spec [(9, 0x007E)] none none none none))
    (fun t => t.reg 9 == 0xFFFF && flagsAre t (some true) (some false) (some false) (some true) && at' t 0x0102 0x0104) = true := by decide

theorem test_V99_cmpi : ok (run 0x9D0F (startF spec [(9, 0xFFE8)] none none none none))
    (fun t => t.reg 9 == 0xFFE8 && flagsAre t (some false) (some false) (some true) (some false) && at' t 0x0102 0x0104) = true := by decide

theorem test_V102_cmpi : ok (run 0x9FEF (startF spec [(9, 0x7FFF)] none none none none))
    (fun t => t.reg 9 == 0x7FFF && flagsAre t (some true) (some true) (some false) (some true) && at' t 0x0102 0x0104) = true := by decide

/-- Data memory with half words at the given addresses. -/
def withData (s : State) (xs : List (Word × Word)) : State :=
  xs.foldl (fun s x => { s with dmem := Memory.writeHalf s.cfg.byteOrder s.dmem x.1 x.2 }) s

theorem test_V111_ld : ok (run 0x5510 (withData (start spec [(5, 0x0102)]) [(0x0102, 0x0104), (0x0104, 0x7777)]))
    (fun t => t.reg 5 == 0x0104 && at' t 0x0102 0x0104) = true := by decide

theorem test_V112_ld : ok (run 0x1210 (withData (start spec [(1, 0x1111), (2, 0xFFFE)]) [(0xFFFE, 0x8001)]))
    (fun t => t.reg 1 == 0x8001 && t.reg 2 == 0xFFFE) = true := by decide

theorem test_V114_st : ok (run 0xF814 (start spec [(8, 0x0200), (15, 0x0006)]))
    (fun t => t.dmem == [(0x0200, 0x06), (0x0201, 0x00)] && t.reg 15 == 0x0006 && at' t 0x0102 0x0104) = true := by decide

theorem test_V116_st : ok (run 0x1214 (withData (start spec [(1, 0xFFFF), (2, 0xFFFE)]) [(0xFFFC, 0x1234)]))
    (fun t => t.dmem == [(0xFFFC, 0x34), (0xFFFD, 0x12), (0xFFFE, 0xFF), (0xFFFF, 0xFF)]) = true := by decide

/-- A state at other addresses. -/
def startAt (c : Config) (x p : Word) (rs : List (Reg × Word)) : State := { start c rs with xpc := x, pc := p }

theorem test_V121_br : ok (run 0x00D8 (startAt { spec with branchScale := .two } 0x000A 0x000C []))
    (fun t => at' t 0x000C 0x0018) = true := by decide

theorem test_V127_br : ok (run 0xFF98 (startAt spec 0x0000 0x0002 [])) (fun t => at' t 0x0002 0xFFFE) = true := by decide

theorem test_V129_bsr : ok (run 0x0159 (startAt spec 0x0002 0x0004 [(15, 0xAAAA)]))
    (fun t => at' t 0x0004 0x000E && t.reg 15 == 0x0006) = true := by decide

theorem test_V131_bsr : ok (run 0xFFD9 (startAt spec 0xFFFC 0xFFFE [])) (fun t => at' t 0xFFFE 0xFFFC && t.reg 15 == 0) = true := by
  decide

theorem test_V133_ret : ok (run 0x001A (startAt spec 0x000E 0x0010 [(15, 0x0006)]))
    (fun t => at' t 0x0010 0x0006 && t.reg 15 == 0x0006) = true := by decide

/-- Truth table T1, the condition column by column: code k on the flags of row r (N V Z C as bits 3 to 0). -/
def column (k : Nat) : List Bool :=
  (List.range 16).map fun r =>
    match condOf spec (BitVec.ofNat 4 k) with
    | some x => condEval x (r.testBit 3) (r.testBit 2) (r.testBit 1) (r.testBit 0)
    | none => false

/-- T1: columns 6 (lt), 8 (gt), C (hi). -/
theorem test_T1_conditions :
    column 6 = [false, false, false, false, true, true, true, true, true, true, true, true, false, false, false, false] ∧
    column 8 = [true, true, false, false, false, false, false, false, false, false, false, false, true, true, false, false] ∧
    column 0xC = [true, false, false, false, true, false, false, false, true, false, false, false, true, false, false, false] := by
  decide

/-- V148, V151, V164: skip is the negated condition; undefined flags the condition does not name do no harm. -/
theorem test_V148_V151_V164_ifs :
    ok (run 0x061F (startF spec [] (some true) (some true) (some false) (some false))) (fun t => t.skip) = true ∧
    ok (run 0x081F (startF spec [] (some false) (some false) (some false) (some false))) (fun t => !t.skip) = true ∧
    ok (run 0x021F (startF spec [] (some false) none (some true) none))
      (fun t => t.skip && flagsAre t (some false) none (some true) none && at' t 0x0102 0x0104) = true := by decide

/-! ### Faults (table 2.9) -/

/-- V170 from State.reset, whose flags are undefined (R34). -/
theorem test_V170_ifs_after_reset :
    bad (run 0x031F State.reset) (.undefinedFlagRead 0x3 0x0000) = true := by decide

theorem test_V169_V198_ifs_faults :
    bad (run 0x0D1F (startF spec [] (some false) (some false) (some true) none)) (.undefinedFlagRead 0xD 0x0100) = true ∧
    bad (run 0x0E1F (start spec [])) (.reservedCondition 0xE 0x0100) = true := by decide

theorem test_V181_V192_illegal :
    bad (run 0x0011 (start spec [])) (.illegalInstruction 0x0011 0x0100) = true ∧
    ok (step { (start spec []).withFetchWord 16 0x0011 with skip := true }) (fun t => at' t 0x0102 0x0104 && !t.skip) = true := by
  decide

theorem test_V205_lsli_field_zero :
    bad (run 0xB008 (start spec [(11, 1)])) (.unspecifiedShift 0xB008 0x0100) = true ∧
    bad (run 0xB0E8 (start spec [(11, 1)])) (.unspecifiedShift 0xB0E8 0x0100) = true ∧
    ok (run 0xB008 (start { spec with lsliZero := .identity } [(11, 1)])) (fun t => t.reg 11 == 1) = true ∧
    ok (run 0xB008 (start { spec with lsliZero := .zero } [(11, 1)])) (fun t => t.reg 11 == 0) = true := by decide

theorem test_V202_V203_odd_targets :
    bad (run 0x0038 (start spec [])) (.misalignedFetch 0x0103 0x0100) = true ∧
    ok (run 0x0038 (start { spec with branchScale := .two } [])) (fun t => at' t 0x0102 0x0104) = true ∧
    bad (run 0x001A (start spec [(15, 0x0201)])) (.misalignedFetch 0x0201 0x0100) = true := by decide

theorem test_V207_V208_V209_data_faults :
    bad (run 0xF814 (start spec [(15, 6), (8, 0x0201)])) (.misalignedData 0x0201 0x0100) = true ∧
    bad (run 0x5610 (start { spec with dmemRegions := [⟨0, 0x3FFF⟩] } [(6, 0x4000)])) (.dataUnmapped 0x4000 0x0100) = true ∧
    bad (run 0x1214 (start { spec with dmemRegions := [⟨0, 0x3FFF⟩] } [(1, 1), (2, 0x4001)]))
      (.misalignedData 0x4001 0x0100) = true := by decide

theorem test_V211_V212_V213_slot :
    bad (run 0x00D8 (startAt spec 0x0104 0x0200 [])) (.branchInDelaySlot 0x0104 0x0200) = true ∧
    ok (run 0x00D8 (startAt Config.running 0x0104 0x0200 [])) (fun t => at' t 0x0200 0x0206) = true ∧
    ok (run 0x0159 (startAt Config.running 0x0104 0x0200 [])) (fun t => at' t 0x0200 0x020A && t.reg 15 == 0x0202) = true ∧
    ok (step { (startAt spec 0x0104 0x0200 []).withFetchWord 16 0x00D8 with skip := true })
      (fun t => at' t 0x0200 0x0202 && !t.skip) = true := by decide

theorem test_V214_fetch_unmapped :
    bad (step (startAt { spec with imemRegions := [⟨0, 0x7FFF⟩] } 0x8000 0x8002 [])) (.fetchUnmapped 0x8000) = true ∧
    bad (step (startAt spec 0x0101 0x0103 [])) (.misalignedFetch 0x0101 0x0101) = true := by decide

/-! ### The assembler on the manual's examples (E1, E3; R88, R100) -/

theorem test_assemble :
    assemble spec 0x0002 "bsr" [.num 0x000E] = some (.bsr 10) ∧
    assemble spec 0x000A "br" [.num 0x0012] = some (.br 6) ∧
    assemble { spec with branchScale := .two } 0x0002 "bsr" [.num 0x000E] = some (.bsr 5) ∧
    assemble spec 0x0100 "br" [.num 0x0100] = some (.br (-2)) ∧
    assemble spec 0 "lsli" [.reg 11, .num 13] = some (.lsli 11 3) ∧
    assemble spec 0 "lsli" [.reg 11, .num 16] = none ∧
    assemble spec 0 "cmpi" [.reg 9, .num (-24)] = some (.cmpi 9 0b1101000) ∧
    assemble spec 0 "subi" [.reg 9, .num 63] = some (.subi 9 63) ∧
    assemble spec 0 "movi" [.reg 1, .num 64] = none ∧
    assemble spec 0 "ifs" [.sym "cc_gt"] = some (.ifs 8) ∧
    assemble spec 0 "ifs" [.sym "cc_nz"] = some (.ifs 2) ∧
    assemble spec 0 "nop" [] = some .nop := by decide

/-! ### Witnesses: for every statement with hypotheses, a state and operands that meet them -/

/-- The word 0x4505, `add r4 r5`, at 0x0100. -/
abbrev atAdd : State := (start spec [(4, 0x7FFF), (5, 1)]).withFetchWord 16 0x4505

theorem witness_DecodeOfEncodeIsIdentity : Instr.wf (.add 4 5) = true := by decide

theorem witness_EncodeOfDecodeClearsUnusedBits :
    decode spec 0x30E3 = .ok (.not 3) ∧
    decode { spec with strictXBits := true } 0x3003 = .ok (.not 3) ∧
    ({ spec with strictXBits := true } : Config).strictXBits = true := ⟨rfl, rfl, rfl⟩

/-- Distances 1 and 15; both opcodes of RET. -/
theorem witness_RemainingInstructionsHaveTheirWords :
    (1 ≤ 1 ∧ 1 ≤ 15) ∧ (1 ≤ 15 ∧ 15 ≤ 15) ∧ spec.retOpcode = .op11010 ∧
    ({ spec with retOpcode := .op11011 } : Config).retOpcode = .op11011 := by decide

theorem witness_IllegalWordsAreTheUnassignedOpcodes :
    decode spec 0x0011 = .error (.illegalInstruction 0x0011) ∧
    decode { spec with strictXBits := true } 0x30E3 = .error (.reservedBits 0x30E3) := ⟨rfl, rfl⟩

theorem witness_OpcodeAloneSelectsInstruction :
    spec.strictXBits = false ∧ opcodeField 0x4505 = opcodeField 0xFFE5 ∧ decode spec 0x4505 = .ok (.add 4 5) ∧
    opcodeField 0x0011 = opcodeField 0xFFF1 ∧ decode spec 0x0011 = .error (.illegalInstruction 0x0011) :=
  ⟨rfl, by decide, rfl, by decide, rfl⟩

theorem witness_StepExecutesDecodedInstruction :
    isOdd atAdd.xpc = false ∧ atAdd.ibusReady = true ∧ admits atAdd.cfg.imemRegions atAdd.xpc = true ∧
    atAdd.prefetch = none ∧ atAdd.skip = false ∧
    decodeBytes atAdd.cfg [Memory.byte atAdd.fetchStorage atAdd.fetchStore atAdd.xpc.toNat,
        Memory.byte atAdd.fetchStorage atAdd.fetchStore (atAdd.xpc.toNat + 1)]
      = .ok (.add 4 5, []) := ⟨by decide, rfl, by decide, rfl, rfl, rfl⟩

theorem witness_PlacedWordIsExecuted :
    isOdd atAdd.xpc = false ∧ admits atAdd.cfg.imemRegions atAdd.xpc = true ∧
    0xFFFA < 65536 ∧ decode atAdd.cfg (BitVec.ofNat 16 0xFFFA) = .ok .ret :=
  ⟨by decide, by decide, by decide, rfl⟩

theorem witness_SkippedWordHasNoEffect :
    ({ atAdd with skip := true } : State).fetch = .done 0x4505 ∧ ({ atAdd with skip := true } : State).skip = true := by decide

theorem witness_FetchAnswersOrFaults :
    (let s := startAt spec 0xFFFF 1 []
     s.ibusReady = true ∧ s.prefetch = none ∧ isOdd s.xpc = true) ∧
    (let s := startAt { spec with imemRegions := [⟨0, 0x7FFF⟩] } 0x8000 0x8002 []
     s.ibusReady = true ∧ s.prefetch = none ∧ isOdd s.xpc = false ∧ admits s.cfg.imemRegions s.xpc = false) ∧
    (let s := startAt { spec with imemRegions := [⟨0, 0x7FFF⟩] } 0x7FFE 0x8000 []
     s.ibusReady = true ∧ s.prefetch = none ∧ isOdd s.xpc = false ∧ admits s.cfg.imemRegions s.xpc = true) := by decide

theorem witness_UnassignedOpcodeFaultsUnlessSkipped :
    let s := (start spec []).withFetchWord 16 0xFFF1
    s.fetch = .done 0xFFF1 ∧ unassignedOpcode s.cfg (opcodeField 0xFFF1).toNat = true ∧ s.skip = false ∧
    ({ s with skip := true } : State).fetch = .done 0xFFF1 := by decide

theorem witness_CoreWaitsForTheBus :
    (let s : State := { atAdd with ibusReady := false }
     isOdd s.xpc = false ∧ s.ibusReady = false) ∧
    (let s : State := { atAdd with dbusReady := false }
     isOdd (s.reg 0) = false ∧ s.dbusReady = false) := by decide

theorem witness_ResetKeepsInvariant : Config.wf Config.running = true := by decide

/-- Non-empty memories, a next state. -/
theorem witness_StepPreservesInvariant : atAdd.Inv ∧ ∃ t, step atAdd = .next t := ⟨by decide, _, rfl⟩

theorem witness_StepNeverWritesInstructionMemory : ∃ t, step atAdd = .next t := ⟨_, rfl⟩

/-- A branch that is taken, and an IFS that sets `skip`, each on a ready bus. -/
theorem witness_OnlyBranchesAndIfsChangeTheFlow :
    (let s := (start spec []).withFetchWord 16 0x00D8
     s.ibusReady = true ∧ s.dbusReady = true ∧ s.executes (.br 6) ∧ ∃ t, step s = .next t ∧ t.pc = 0x0108) ∧
    (let s := (startF spec [] none none (some true) none).withFetchWord 16 0x021F
     s.ibusReady = true ∧ s.dbusReady = true ∧ s.executes (.ifs 2) ∧ ∃ t, step s = .next t ∧ t.skip = true) :=
  ⟨⟨rfl, rfl, ⟨rfl, _, by rfl, rfl⟩, _, rfl, by decide⟩, rfl, rfl, ⟨rfl, _, by rfl, rfl⟩, _, rfl, rfl⟩

/-- A store to memory, a store to a device, and an instruction that is no memory instruction, in separate and in shared storage. -/
theorem witness_OnlyLoadAndStoreTouchDataMemory :
    (let s := (start spec [(8, 0x0200), (15, 6)]).withFetchWord 16 0xF814
     ∃ t, step s = .next t ∧ t.dmem ≠ s.dmem) ∧
    (let s := (start { spec with ioRegions := [⟨0x0200, 0x0201⟩] } [(8, 0x0200), (15, 6)]).withFetchWord 16 0xF814
     ∃ t, step s = .next t ∧ t.io ≠ s.io) ∧
    (isMemory (.lsli 11 0) = false ∧ (start spec []).cfg.unifiedMemory = false) ∧
    (let s := (start { spec with unifiedMemory := true } []).withFetchWord 16 0xB0E8
     isMemory (.lsli 11 0) = false ∧ ({ s with dmem := (0, 1) :: s.dmem } : State).fetch = s.fetch) :=
  ⟨⟨_, rfl, by decide⟩, ⟨_, rfl, by decide⟩, ⟨rfl, rfl⟩, rfl, by decide⟩

/-- An instruction of each row of R29, and a skipped one. -/
theorem witness_FlagsAreWrittenByTheirGroupOnly :
    (∃ t, exec (.or 9 2) atAdd = .next t) ∧ (∃ t, exec (.add 4 5) atAdd = .next t) ∧ (∃ t, exec (.mov 4 5) atAdd = .next t) ∧
    (∃ t, step { atAdd with skip := true } = .next t) := ⟨⟨_, rfl⟩, ⟨_, rfl⟩, ⟨_, rfl⟩, _, rfl⟩

/-- A logic instruction; and an instruction of another group where a flag is undefined. -/
theorem witness_UndefinedFlagsCarryFreshValues :
    (∃ t, exec (.or 9 2) atAdd = .next t ∧ flagGroupOf (.or 9 2) = .logic) ∧
    ∃ t, exec (.mov 9 2) atAdd = .next t ∧ flagGroupOf (.mov 9 2) ≠ .logic ∧ t.flags.v = .undef 1 :=
  ⟨⟨_, rfl, rfl⟩, _, rfl, by decide, rfl⟩

/-- Each fault that exec raises. -/
theorem witness_FaultsComeFromTheirInstructionsOnly :
    bad (exec (.ifs 0xE) (start spec [])) (.reservedCondition 0xE 0x0100) = true ∧
    bad (exec (.ifs 0x0) (start spec [])) (.undefinedFlagRead 0x0 0x0100) = true ∧
    bad (exec (.lsli 1 0) ((start spec []).withFetchWord 16 0x10E8)) (.unspecifiedShift 0x10E8 0x0100) = true ∧
    bad (exec (.ld 1 2) (start spec [(2, 1)])) (.misalignedData 1 0x0100) = true ∧
    bad (exec (.st 1 2) (start { spec with dmemRegions := [] } [])) (.dataUnmapped 0 0x0100) = true ∧
    bad (exec .ret (start spec [(15, 1)])) (.misalignedFetch 1 0x0100) = true ∧
    bad (exec (.br 0) (startAt spec 0x0104 0x0200 [])) (.branchInDelaySlot 0x0104 0x0200) = true := by decide

/-- Fields 1 and 15. -/
theorem witness_LsliShiftsBySixteenMinusField : (1 : BitVec 4) ≠ 0 ∧ (15 : BitVec 4) ≠ 0 := by decide

theorem witness_LsliAssemblesToItsDistance : (1 ≤ 1 ∧ 1 ≤ 15) ∧ (1 ≤ 15 ∧ 15 ≤ 15) := by decide

theorem witness_LsliFieldZeroFollowsItsParameter :
    (start { spec with lsliZero := .identity } []).cfg.lsliZero = .identity ∧
    (start { spec with lsliZero := .zero } []).cfg.lsliZero = .zero ∧
    State.reset.cfg.lsliZero = .either ∧ (start spec []).cfg.lsliZero = .refuse ∧
    ((start spec []).withFetchWord 16 0xB0E8).fetch = .done 0xB0E8 := by decide

/-- Data memory at 0x0000 to 0x3FFF, a device above it. -/
abbrev mapped : Config := { spec with dmemRegions := [⟨0, 0x3FFF⟩], ioRegions := [⟨0x4000, 0x4FFF⟩] }

/-- The first and the last half word of data memory. -/
theorem witness_LoadReadsDataMemory :
    let s := start mapped [(2, 0), (3, 0x3FFE)]
    s.dbusReady = true ∧
    isOdd (s.reg 2) = false ∧ admits s.cfg.ioRegions (s.reg 2) = false ∧ admits s.cfg.dmemRegions (s.reg 2) = true ∧
    isOdd (s.reg 3) = false ∧ admits s.cfg.ioRegions (s.reg 3) = false ∧ admits s.cfg.dmemRegions (s.reg 3) = true := by decide

/-- The last half word of the whole space; the store does not race. -/
theorem witness_StoreWritesDataMemory :
    let s := withData (start spec [(1, 0xFFFF), (2, 0xFFFE)]) [(0xFFFC, 0x1234)]
    isOdd (s.reg 2) = false ∧ s.dbusReady = true ∧ admits s.cfg.ioRegions (s.reg 2) = false ∧
    admits s.cfg.dmemRegions (s.reg 2) = true ∧ s.storeRaces (s.reg 2) = false := by decide

theorem witness_LoadAfterStoreReturnsTheValue :
    let s := start spec [(1, 0xBEEF), (2, 0x0200), (3, 0x0200)]
    isOdd (s.reg 2) = false ∧ s.dbusReady = true ∧ admits s.cfg.ioRegions (s.reg 2) = false ∧
    admits s.cfg.dmemRegions (s.reg 2) = true ∧ (∃ t, exec (.st 1 2) s = .next t) ∧ s.reg 3 = s.reg 2 :=
  ⟨by decide, rfl, by decide, by decide, ⟨_, rfl⟩, by decide⟩

theorem witness_DeviceAccessesGoToThePlatform :
    let s := start mapped [(2, 0x4000), (3, 0x4FFE)]
    s.dbusReady = true ∧ isOdd (s.reg 2) = false ∧ admits s.cfg.ioRegions (s.reg 2) = true ∧
    isOdd (s.reg 3) = false ∧ admits s.cfg.ioRegions (s.reg 3) = true := by decide

/-- An odd address inside a region, and the first one past both. -/
theorem witness_BadDataAddressesFault :
    let s := start mapped [(2, 0x3FFF), (3, 0x5000)]
    isOdd (s.reg 2) = true ∧ isOdd (s.reg 3) = false ∧ s.dbusReady = true ∧ admits s.cfg.ioRegions (s.reg 3) = false ∧
    admits s.cfg.dmemRegions (s.reg 3) = false := by decide

/-- A store to the word being fetched, and one to the word after it. -/
theorem witness_SharedStorageStoreRacesWithFetch :
    let s := start { spec with unifiedMemory := true } [(1, 0xBEEF), (2, 0x0102), (3, 0x0104)]
    s.cfg.unifiedMemory = true ∧ isOdd s.pc = false ∧ s.ibusReady = true ∧ s.dbusReady = true ∧
    admits s.cfg.imemRegions s.pc = true ∧
    (admits s.cfg.ioRegions (s.reg 2) = false ∧ s.reg 2 = s.pc ∧ ∃ t, exec (.st 1 2) s = .next t) ∧
    (admits s.cfg.ioRegions (s.reg 3) = false ∧ s.reg 3 ≠ s.pc ∧ ∃ t, exec (.st 1 3) s = .next t) :=
  ⟨rfl, by decide, rfl, rfl, by decide, ⟨rfl, by decide, _, rfl⟩, ⟨rfl, by decide, _, rfl⟩⟩

/-- Offsets at both ends of the range, both scales, a wrap below 0 (V124, V125, V126, V127). -/
theorem witness_BranchGoesToItsTarget :
    (startAt spec 0x0800 0x0802 []).mayBranch ∧
    ((0x0402 : Word).toNat : Int) = (0x0802 + (-1024#11).toInt * 1) % 65536 ∧
    ((0x0C00 : Word).toNat : Int) = (0x0802 + (1022#11).toInt * 1) % 65536 ∧
    ((0x1000 : Word).toNat : Int) = (0x0802 + (1023#11).toInt * 2) % 65536 ∧
    ((0xFFFE : Word).toNat : Int) = (0x0002 + (-4#11).toInt * 1) % 65536 ∧ isOdd 0xFFFE = false :=
  ⟨.inr rfl, by decide, by decide, by decide, by decide, by decide⟩

/-- A branch in a delay slot that may stand there: the other disjunct of `mayBranch`. -/
theorem witness_BranchToSubroutineLinks :
    (startAt Config.running 0x0104 0x0200 []).mayBranch ∧
    ((0x020A : Word).toNat : Int) = (0x0200 + (10#11).toInt * 1) % 65536 ∧ isOdd 0x020A = false :=
  ⟨.inl rfl, by decide, by decide⟩

theorem witness_ReturnGoesToLinkRegister :
    (startAt spec 0xFFFC 0xFFFE [(15, 0xFFFE)]).mayBranch ∧ isOdd ((startAt spec 0xFFFC 0xFFFE [(15, 0xFFFE)]).reg 15) = false :=
  ⟨.inr rfl, by decide⟩

theorem witness_OddBranchTargetsFault :
    (let s := start spec [(15, 0x0201)]
     s.mayBranch ∧ isOdd (s.reg 15) = true ∧ s.cfg.branchScale = .one ∧ isOdd s.pc = false ∧ (1023#11).toNat % 2 = 1 ∧
       (-1023#11).toNat % 2 = 1) ∧
    (let s := start { spec with branchScale := .two } []
     s.mayBranch ∧ s.cfg.branchScale = .two ∧ isOdd s.pc = false) :=
  ⟨⟨.inr rfl, by decide, rfl, by decide, by decide, by decide⟩, .inr rfl, rfl, by decide⟩

theorem witness_BranchInDelaySlotFollowsItsParameter :
    (let s := startAt spec 0x0104 0x0200 []
     s.pc ≠ s.xpc + 2 ∧ s.cfg.branchInSlot = .refuse ∧ isBranch (.br 6) = true ∧ isBranch (.bsr 6) = true ∧
       isBranch .ret = true) ∧
    (let s := startAt Config.running 0x0104 0x0200 [(15, 0x0300)]
     s.pc ≠ s.xpc + 2 ∧ s.cfg.branchInSlot = .allow ∧ isOdd (s.pc + branchOffset s.cfg.branchScale 6) = false ∧
       isOdd (s.reg 15) = false) := by decide

/-- `br end` and its `nop`, of the manual's program (E1). -/
abbrev atBranch : State := withCode (startAt spec 0x000A 0x000C []) [(0x000A, 0x00D8), (0x000C, 0x0000)]

/-- The slot is `nop`, no branch; it can be executed. -/
theorem witness_DelaySlotExecutesBeforeTarget :
    atBranch.dbusReady = true ∧ atBranch.ibusReady = true ∧ atBranch.executes (.br 6) ∧ isBranch (.br 6) = true ∧
    ∃ t u, step atBranch = .next t ∧ step t = .next u ∧ t.fetch = .done 0x0000 ∧ decode t.cfg 0x0000 = .ok .nop ∧
      ∀ j, t.executes j → isBranch j = false := by
  refine ⟨rfl, rfl, ⟨rfl, _, by rfl, rfl⟩, rfl, _, _, rfl, rfl, by decide, rfl, ?_⟩
  rintro j ⟨_, w, hf, hd⟩
  cases hf
  cases hd
  rfl

/-- BSR at 0x0002 (V129), and the RET of its subroutine at 0x000E. -/
theorem witness_SubroutineReturnsPastTheDelaySlot :
    let s := startAt spec 0x0002 0x0004 []
    let u := startAt spec 0x000E 0x0010 [(15, 0x0006)]
    s.pc = s.xpc + 2 ∧ isOdd s.pc = false ∧ (∃ t, exec (.bsr 10) s = .next t ∧ u.reg 15 = t.reg 15) ∧ u.mayBranch :=
  ⟨rfl, by decide, ⟨_, rfl, by decide⟩, .inr rfl⟩

/-- Both ends of the range and a wrap, both scales (V123 to V127). -/
theorem witness_AssembledBranchReachesItsLabel :
    branchField .one 0x0100 0x0100 = some (-2) ∧ branchField .one 0x0800 0x0402 = some (-1024) ∧
    branchField .one 0x0800 0x0C00 = some 1022 ∧ branchField .two 0x0800 0x1000 = some 1023 ∧
    branchField .one 0x0000 0xFFFE = some (-4) := by decide

/-- Defined flags; undefined ones with `UNDEF_FLAG_READ` = free; both ends of each list of codes. -/
theorem witness_IfsWritesSkipOnly :
    condOf spec 0x0 = some .cc ∧ condOf spec 0x7 = some .ge ∧ condOf spec 0x8 = some .gt ∧ condOf spec 0xD = some .la ∧
    condReadsUndef .la (startF spec [] none none (some true) (some true)).flags = false ∧
    condReadsUndef .cc (start free []).flags = true ∧ (start free []).cfg.undefFlagRead = .free := by decide

theorem witness_IfsFollowsTheConditionTable :
    let s := startF spec [] (some true) (some false) (some false) (some true)
    s.flags = ⟨.known true, .known false, .known false, .known true⟩ ∧ s.cfg.ccHigh = ccHighInOrder := by decide

theorem witness_ConditionsAfterCompareMeanComparisons :
    let s := start spec [(9, 0x8000), (3, 1)]
    s.cfg.subCarryIsBorrow = true ∧ (∃ t, exec (.cmp 9 3) s = .next t) ∧ s.cfg.ccHigh = ccHighInOrder := ⟨rfl, ⟨_, rfl⟩, rfl⟩

/-- One undefined flag at a time, the others defined. -/
theorem witness_IfsOnUndefinedFlagFaults :
    spec.undefFlagRead = .fault ∧ spec.ccHigh = ccHighInOrder ∧
    (startF spec [] (some false) (some false) (some true) none).flags.c.isUndef = true ∧
    (startF spec [] (some false) (some false) none (some true)).flags.z.isUndef = true ∧
    (startF spec [] none (some false) (some true) (some true)).flags.n.isUndef = true ∧
    (startF spec [] (some false) none (some true) (some true)).flags.v.isUndef = true := by decide

/-- The first and the last pair of codes. -/
theorem witness_UndefinedFlagsAnswerConsistently :
    (start free []).cfg.undefFlagRead = .free ∧ (start free []).cfg.ccHigh = ccHighInOrder ∧ 0 < 7 ∧ 6 < 7 := by decide

theorem witness_ReservedConditionsFault : State.reset.cfg.ccHigh = ccHighInOrder ∧ (0xE : BitVec 4) = 0xE := by decide

/-- An `ifs cc_nz` with Z = 1 before an illegal word. -/
theorem witness_FalseIfsSkipsExactlyOneInstruction :
    let s := withCode (startF spec [] (some false) none (some true) none) [(0x0102, 0x0011)]
    ∃ t, exec (.ifs 2) s = .next t ∧ t.skip = true ∧ t.fetch = .done 0x0011 := ⟨_, rfl, rfl, by decide⟩

end Sys2Proof.Tests
end

section
/-! SUPPORT. Proofs of the family 10_state.md: the invariant, the flags by group, the step and the fetch, the subroutine's
return, the pairs of conditions. Each part opens with the facts about the model's operations that its obligations rest on. -/

namespace Sys2Proof.Machine

open Sys2Proof

/-! ### What each operation does to the invariant -/

/-- More free values used up leave an undefined flag's draw used up. -/
theorem Flag.below_mono {d e : Nat} (hde : d ≤ e) {f : Flag} (h : f.below d = true) : f.below e = true := by
  cases f with
  | known b => rfl
  | undef k => exact decide_eq_true (Nat.lt_of_lt_of_le (of_decide_eq_true h) hde)

/-- The end of a step that moves on: pc, even, becomes xpc, and the address after it is even too (10_state.md R26). -/
theorem State.Inv.advance {s : State} (h : s.Inv) : s.advance.Inv := by
  obtain ⟨hi, hd, hpc, -, hf, -⟩ := h
  exact ⟨hi, hd, by rw [State.advance_pc, isOdd_add_two, hpc], hpc, hf, fun _ => rfl⟩

/-- The end of a step that branches to an even target. -/
theorem State.Inv.jump {s : State} (h : s.Inv) {t : Word} (ht : isOdd t = false) : (s.jump t).Inv := by
  obtain ⟨hi, hd, hpc, -, hf, -⟩ := h
  exact ⟨hi, hd, ht, hpc, hf, fun _ => rfl⟩

/-- The invariant does not speak of `skip`. -/
theorem State.Inv.withSkip {s : State} (h : s.Inv) (b : Bool) : ({ s with skip := b } : State).Inv := h

/-- The invariant does not speak of the registers. -/
theorem State.Inv.setReg {s : State} (h : s.Inv) (a : Reg) (v : Word) : (s.setReg a v).Inv := h

/-- The invariant does not speak of the transfers made with devices. -/
theorem State.Inv.withIo {s : State} (h : s.Inv) (evs : List IoEvent) : ({ s with io := evs } : State).Inv := h

/-- Data memory may become any canonical memory. -/
theorem State.Inv.withDmem {s : State} (h : s.Inv) {m : Memory} (hm : Memory.wf m) :
    ({ s with dmem := m } : State).Inv := by
  obtain ⟨hi, -, hrest⟩ := h
  exact ⟨hi, hm, hrest⟩

/-- In shared storage the word already fetched may be anything. -/
theorem State.Inv.withPrefetch {s : State} (h : s.Inv) (hu : s.cfg.unifiedMemory = true) (p : Option Word) :
    ({ s with prefetch := p } : State).Inv := by
  obtain ⟨hi, hd, hpc, hx, hf, -⟩ := h
  exact ⟨hi, hd, hpc, hx, hf, fun hs => absurd (hs.symm.trans hu) Bool.false_ne_true⟩

/-- Using up free values keeps the invariant. -/
theorem State.Inv.useDraws {s : State} (h : s.Inv) (k : Nat) : (s.useDraws k).Inv := by
  obtain ⟨hi, hd, hpc, hx, hf, hp⟩ := h
  simp only [Bool.and_eq_true] at hf
  obtain ⟨⟨⟨hn, hv⟩, hz⟩, hc⟩ := hf
  have up : ∀ {f : Flag}, f.below s.draws = true → f.below (s.draws + k) = true :=
    Flag.below_mono (Nat.le_add_right ..)
  refine ⟨hi, hd, hpc, hx, ?_, hp⟩
  simp [up hn, up hv, up hz, up hc]

/-- Flags with values keep the invariant: they carry no draw. -/
theorem State.Inv.setFlags_known {s : State} (h : s.Inv) (n v z c : Bool) :
    (s.setFlags ⟨.known n, .known v, .known z, .known c⟩).Inv := by
  obtain ⟨hi, hd, hpc, hx, -, hp⟩ := h
  exact ⟨hi, hd, hpc, hx, rfl, hp⟩

/-- A logic instruction's V and C carry the two draws it uses up. -/
theorem State.Inv.setFlags_logic {s : State} (h : s.Inv) (r : Word) :
    ((s.setFlags (logicFlags r s.draws)).useDraws 2).Inv := by
  obtain ⟨hi, hd, hpc, hx, -, hp⟩ := h
  exact ⟨hi, hd, hpc, hx, by simp [logicFlags, nOf, zOf, Flag.below], hp⟩

/-- The end of ST's step, from a state after the store that keeps the invariant and the parameters: a word is fetched early
only in a race, which separate storage does not have. -/
theorem State.Inv.advanceAfterStore {s t : State} (ht : t.Inv) (hcfg : t.cfg = s.cfg) (hdraws : t.draws = s.draws)
    (ea : Word) : (s.advanceAfterStore t ea).Inv := by
  rcases advanceAfterStore_cases s t ea with ⟨-, e⟩ | ⟨-, hu, -, e⟩ <;> rw [e]
  · exact ht.advance
  · rw [← hdraws]
    exact (ht.advance.useDraws 1).withPrefetch (hcfg ▸ hu) _

/-- Every shape of a next state keeps the invariant. -/
theorem NextShape.inv {i : Instr} {s t : State} (h : NextShape i s t) (hs : s.Inv) : t.Inv := by
  cases h with
  | logic a r => exact ((hs.setReg a r).setFlags_logic r).advance
  | arith a r n v z c => exact ((hs.setReg a r).setFlags_known n v z c).advance
  | compare n v z c => exact (hs.setFlags_known n v z c).advance
  | move a r => exact (hs.setReg a r).advance
  | wait => exact hs
  | load a b r => exact (hs.setReg a r).advance
  | loadIo a b r ev => exact (((hs.useDraws 1).withIo _).setReg a r).advance
  | store a b ho =>
    have ⟨_, hd, _⟩ := hs
    exact State.Inv.advanceAfterStore (s := s) (hs.withDmem (Memory.writeHalf_wf hd _ ho _)) rfl rfl _
  | storeIo a b ev => exact (hs.withIo _).advance
  | branch t _ ho => exact hs.jump ho
  | link t _ ho => exact (hs.setReg _ _).jump ho
  | ifs code b => exact hs.advance.withSkip b

/-- Settles O15: a step waits, skips, or ends in one of exec's shapes, and each keeps the invariant. -/
theorem stepPreservesInvariant : Obligations.StepPreservesInvariant := by
  intro s t hs h
  rcases step_next_cases h with ⟨-, rfl⟩ | ⟨w, -, -, rfl⟩ | ⟨i, -, -, hshape⟩
  · exact hs
  · exact hs.advance.withSkip false
  · exact hshape.inv hs

/-- The memory that lists nothing is canonical. -/
theorem Memory.wf_nil : Memory.wf [] := ⟨.nil, nofun⟩

/-- Reset meets the invariant: both memories list nothing, the four flags carry draws 0 to 3 of the 4 used up, and an even
`RESET_PC` makes xpc and pc even. -/
theorem State.resetWith_inv {c : Config} (hc : c.wf = true) : (State.resetWith c).Inv := by
  have hx : isOdd c.resetPc = false := by
    simp only [Config.wf, Bool.and_eq_true, Bool.not_eq_true'] at hc
    obtain ⟨⟨⟨⟨hreset, -⟩, -⟩, -⟩, -⟩ := hc
    exact hreset
  have hp : isOdd (c.pcAdd c.resetPc 2) = false := by rw [pcAdd_eq, isOdd_add_two, hx]
  exact ⟨Memory.wf_nil, Memory.wf_nil, hp, hx, rfl, fun _ => rfl⟩

/-- Settles O14: the parameters of `State.reset` are well formed. -/
theorem resetKeepsInvariant : Obligations.ResetKeepsInvariant :=
  ⟨State.resetWith_inv (c := Config.running) (by decide), fun _ => State.resetWith_inv⟩

/-- Settles O13: the fields of `State.resetWith`; pc's sum is that of words. -/
theorem resetStateIsAsSpecified : Obligations.ResetStateIsAsSpecified :=
  ⟨fun c => ⟨rfl, pcAdd_eq c c.resetPc 2, rfl, rfl, rfl, rfl, rfl, rfl, rfl, rfl⟩, rfl, rfl⟩

/-! ### Flags by group (10_state.md R29) -/

/-- BR, BSR and RET stand in the row of R29 that writes no flag. -/
theorem flagGroupOf_of_isBranch {i : Instr} (h : isBranch i = true) : flagGroupOf i = .none := by
  cases i with
  | br n => rfl
  | bsr n => rfl
  | ret => rfl
  | _ => simp [isBranch] at h

@[simp] theorem State.advanceAfterStore_flags (s t : State) (ea : Word) :
    (s.advanceAfterStore t ea).flags = t.flags := by
  rcases advanceAfterStore_cases s t ea with ⟨-, e⟩ | ⟨-, -, -, e⟩ <;> rw [e] <;> rfl

/-- ST's step uses up a free value at most: the one of the race. -/
theorem State.le_advanceAfterStore_draws {s t : State} (h : t.draws = s.draws) (ea : Word) :
    s.draws ≤ (s.advanceAfterStore t ea).draws := by
  rcases advanceAfterStore_cases s t ea with ⟨-, e⟩ | ⟨-, -, -, e⟩ <;> rw [e]
  · exact h.ge
  · exact Nat.le_succ _

/-- What an instruction's step does to the flags and the draws, by its row of R29. -/
theorem NextShape.flags_cases {i : Instr} {s t : State} (h : NextShape i s t) :
    (flagGroupOf i = .logic ∧ (∃ r, t.flags = logicFlags r s.draws) ∧ t.draws = s.draws + 2) ∨
    (flagGroupOf i = .arithmetic ∧ (∃ n v z c, t.flags = ⟨.known n, .known v, .known z, .known c⟩) ∧
      t.draws = s.draws) ∨
    (flagGroupOf i = .none ∧ t.flags = s.flags ∧ s.draws ≤ t.draws) := by
  cases h with
  | logic a r hg => exact .inl ⟨hg, ⟨r, rfl⟩, rfl⟩
  | arith a r n v z c hg => exact .inr (.inl ⟨hg, ⟨n, v, z, c, rfl⟩, rfl⟩)
  | compare n v z c hg => exact .inr (.inl ⟨hg, ⟨n, v, z, c, rfl⟩, rfl⟩)
  | move a r hg => exact .inr (.inr ⟨hg, rfl, Nat.le_refl _⟩)
  | wait hg => exact .inr (.inr ⟨hg, rfl, Nat.le_refl _⟩)
  | load a b r hi => exact .inr (.inr ⟨hi ▸ rfl, rfl, Nat.le_refl _⟩)
  | loadIo a b r ev hi => exact .inr (.inr ⟨hi ▸ rfl, rfl, Nat.le_succ _⟩)
  | store a b ho hi =>
    exact .inr (.inr ⟨hi ▸ rfl, State.advanceAfterStore_flags .., State.le_advanceAfterStore_draws (by rfl) _⟩)
  | storeIo a b ev hi => exact .inr (.inr ⟨hi ▸ rfl, rfl, Nat.le_refl _⟩)
  | branch t hb => exact .inr (.inr ⟨flagGroupOf_of_isBranch hb, rfl, Nat.le_refl _⟩)
  | link t hb => exact .inr (.inr ⟨flagGroupOf_of_isBranch hb, rfl, Nat.le_refl _⟩)
  | ifs code b hi => exact .inr (.inr ⟨hi ▸ rfl, rfl, Nat.le_refl _⟩)

/-- Settles O19: the rows of R29, and a skipped word (or a core that waits to fetch it) writes no flag. -/
theorem flagsAreWrittenByTheirGroupOnly : Obligations.FlagsAreWrittenByTheirGroupOnly := by
  refine ⟨fun i s t h => ?_, fun s t hskip h => ?_⟩
  · rcases (exec_next_shape h).flags_cases with ⟨hg, ⟨r, e⟩, -⟩ | ⟨hg, ⟨n, v, z, c, e⟩, -⟩ | ⟨hg, e, -⟩ <;>
      rw [hg, e]
    · exact ⟨rfl, rfl, rfl, rfl⟩
    · exact ⟨rfl, rfl, rfl, rfl⟩
  · rcases step_next_cases h with ⟨-, rfl⟩ | ⟨w, -, -, rfl⟩ | ⟨i, ⟨hnot, -⟩, -⟩
    · rfl
    · rfl
    · exact absurd (hnot.symm.trans hskip) Bool.false_ne_true

/-- Settles O22: V and C of a logic instruction carry the next two draws, which it uses up; the arithmetic group's flags carry
none, and the other instructions keep the flags. -/
theorem undefinedFlagsCarryFreshValues : Obligations.UndefinedFlagsCarryFreshValues := by
  intro i s t h
  rcases (exec_next_shape h).flags_cases with ⟨hg, ⟨r, e⟩, hd⟩ | ⟨hg, ⟨n, v, z, c, e⟩, hd⟩ | ⟨hg, e, hd⟩ <;>
    rw [hg, e]
  · refine ⟨by omega, fun _ => ⟨s.draws, s.draws + 1, rfl, rfl, ?_⟩, fun hne => absurd rfl hne⟩
    omega
  · exact ⟨hd.ge, nofun, fun _ k => ⟨nofun, nofun, nofun, nofun⟩⟩
  · exact ⟨hd, nofun, fun _ k => ⟨id, id, id, id⟩⟩

/-! ### The step executes the word fetched (10_state.md R25) -/

/-- The step of a state that executes `i` is `exec i`. -/
theorem step_of_executes {s : State} {i : Instr} (h : s.executes i) : step s = exec i s := by
  obtain ⟨hskip, w, hf, hd⟩ := h
  simp [step, hf, hskip, hd]

/-- The fetch of an even admitted address on a ready bus answers the word already fetched, or else memory's (20_memory.md
R56). -/
theorem fetch_of_admits {s : State} (ho : isOdd s.xpc = false) (hr : s.ibusReady = true)
    (ha : admits s.cfg.imemRegions s.xpc = true) :
    s.fetch = .done (s.prefetch.getD (Memory.readHalf s.fetchStorage s.cfg.byteOrder s.fetchStore s.xpc)) := by
  simp [State.fetch, ho, hr, ha]

/-- Two bytes decode as the half word they make up, and leave no byte over. -/
theorem decodeBytes_pair_ok {c : Config} {x y : Byte} {i : Instr} :
    decodeBytes c [x, y] = .ok (i, []) ↔ decode c (joinBytes c.byteOrder x y) = .ok i := by
  rw [decodeBytes]
  cases decode c (joinBytes c.byteOrder x y) <;> simp [Except.map]

/-- Settles O7: the two bytes at xpc make up the word the fetch answers. -/
theorem stepExecutesDecodedInstruction : Obligations.StepExecutesDecodedInstruction := by
  intro s i ho hr ha hp hskip hd
  have hf := fetch_of_admits ho hr ha
  rw [hp] at hf
  exact step_of_executes ⟨hskip, _, hf, decodeBytes_pair_ok.1 hd⟩

@[simp] theorem State.placeWord_cfg (s : State) (w : Word) : (s.placeWord w).cfg = s.cfg := by
  rw [State.placeWord]; split <;> rfl

@[simp] theorem State.placeWord_xpc (s : State) (w : Word) : (s.placeWord w).xpc = s.xpc := by
  rw [State.placeWord]; split <;> rfl

@[simp] theorem State.placeWord_skip (s : State) (w : Word) : (s.placeWord w).skip = false := by
  rw [State.placeWord]; split <;> rfl

@[simp] theorem State.placeWord_prefetch (s : State) (w : Word) : (s.placeWord w).prefetch = none := by
  rw [State.placeWord]; split <;> rfl

@[simp] theorem State.placeWord_ibusReady (s : State) (w : Word) : (s.placeWord w).ibusReady = true := by
  rw [State.placeWord]; split <;> rfl

/-- The storage that fetch reads has the placed word written at xpc, whichever storage that is (20_memory.md R66). -/
@[simp] theorem State.placeWord_fetchStore (s : State) (w : Word) :
    (s.placeWord w).fetchStore = Memory.writeHalf s.cfg.byteOrder s.fetchStore s.xpc w := by
  rw [State.placeWord]
  split <;> simp [State.fetchStore, *]

/-- The next fetch answers the word placed. -/
theorem fetch_placeWord {s : State} (ho : isOdd s.xpc = false) (ha : admits s.cfg.imemRegions s.xpc = true) (w : Word) :
    (s.placeWord w).fetch = .done w := by
  rw [fetch_of_admits (by simpa using ho) (by simp) (by simpa using ha)]
  simp

/-- Settles O8: the fetch answers the word placed, and the placed state skips nothing. -/
theorem placedWordIsExecuted : Obligations.PlacedWordIsExecuted := by
  intro s n i ho ha hn hd
  have hw : s.withFetchWord 16 n = s.placeWord (BitVec.ofNat 16 n) := by
    rw [State.withFetchWord, Nat.mod_eq_of_lt (show n < 2 ^ 16 from hn)]
  rw [hw]
  exact step_of_executes ⟨by simp, _, fetch_placeWord ho ha _, by simpa using hd⟩

/-! ### A subroutine and its return (45_branch.md R172, R173) -/

/-- Where a branch may stand, it goes to an even target. -/
theorem branchTo_of_mayBranch {s : State} (hm : s.mayBranch) {t : Word} (ht : isOdd t = false) (s' : State) :
    branchTo t s' s = .next (s'.jump t) := by
  rcases branchTo_cases t s' s with ⟨hr, hslot, -⟩ | ⟨-, hodd, -⟩ | ⟨-, -, e⟩
  · rcases hm with hallow | hpc
    · simp [hr] at hallow
    · simp [hpc] at hslot
  · exact absurd (ht.symm.trans hodd) Bool.false_ne_true
  · exact e

/-- A BSR that completes leaves the address after its delay slot in r15. -/
theorem exec_bsr_link {n : BitVec 11} {s t : State} (h : exec (.bsr n) s = .next t) : t.reg 15 = s.pc + 2 := by
  rw [exec, execBsr_eq] at h
  rcases branchTo_cases (s.pc + branchOffset s.cfg.branchScale n) (s.setReg linkReg (s.pc + 2)) s with
    ⟨-, -, e⟩ | ⟨-, -, e⟩ | ⟨-, -, e⟩ <;> rw [e] at h
  · simp at h
  · simp at h
  · cases h
    exact State.reg_setReg_same s linkReg (s.pc + 2)

/-- Settles O48: outside a slot the link of a BSR at X is (X + 2) + 2, even with pc, and RET goes there. -/
theorem subroutineReturnsPastTheDelaySlot : Obligations.SubroutineReturnsPastTheDelaySlot := by
  intro n s t u hpc hodd hbsr hreg hmay
  have hlink : u.reg 15 = s.pc + 2 := hreg.trans (exec_bsr_link hbsr)
  have heven : isOdd (u.reg 15) = false := by rw [hlink, isOdd_add_two, hodd]
  refine ⟨u.jump (u.reg 15), branchTo_of_mayBranch hmay heven u, rfl, ?_⟩
  calc u.reg 15 = s.xpc + 2 + 2 := by rw [hlink, hpc]
    _ = s.xpc + 4 := BitVec.add_assoc ..

end Sys2Proof.Machine

/-! ### The pairs of conditions (30_encoding.md R96) -/

namespace Sys2Proof

/-- The other condition of the pair: codes 2j and 2j + 1 with `CC_HIGH` in row order (`condOf_pair`), true exactly where the
condition is false (`condEval_opposite`). -/
def Cond.opposite : Cond → Cond
  | .cc => .cs
  | .cs => .cc
  | .ne => .eq
  | .eq => .ne
  | .pl => .mi
  | .mi => .pl
  | .lt => .ge
  | .ge => .lt
  | .gt => .le
  | .le => .gt
  | .vc => .vs
  | .vs => .vc
  | .hi => .la
  | .la => .hi

end Sys2Proof

namespace Sys2Proof.Machine

open Sys2Proof

/-- Opposite conditions are true at opposite flags. -/
theorem condEval_opposite (k : Cond) (n v z c : Bool) : condEval k.opposite n v z c = !condEval k n v z c := by
  cases k <;> simp [Cond.opposite, condEval]

/-- The two codes of a pair have opposite conditions. -/
theorem condOf_pair {c : Config} (hc : c.ccHigh = ccHighInOrder) {j : Nat} (hj : j < 7) :
    ∃ k, condOf c (BitVec.ofNat 4 (2 * j)) = some k ∧ condOf c (BitVec.ofNat 4 (2 * j + 1)) = some k.opposite := by
  interval_cases j <;> simp [condOf, hc, ccHighInOrder, Cond.opposite]

/-- With `UNDEF_FLAG_READ` = free an IFS with a condition completes and writes its negation to `skip`. -/
theorem exec_ifs_free {s : State} (hfree : s.cfg.undefFlagRead = .free) {code : BitVec 4} {k : Cond}
    (hk : condOf s.cfg code = some k) :
    exec (.ifs code) s = .next { s.advance with
      skip := !condEval k s.flags.n.value s.flags.v.value s.flags.z.value s.flags.c.value } := by
  simp only [exec, execIfs, hk, hfree, condHolds_free]

/-- Settles O54: both codes of a pair read the same values of the flags, and their conditions are opposite. -/
theorem undefinedFlagsAnswerConsistently : Obligations.UndefinedFlagsAnswerConsistently := by
  intro s j hfree hhigh hj
  obtain ⟨k, hk, hk'⟩ := condOf_pair hhigh hj
  exact ⟨_, _, exec_ifs_free hfree hk, exec_ifs_free hfree hk', by simp [condEval_opposite], rfl, rfl⟩

end Sys2Proof.Machine
end

section
/-! SUPPORT. Proofs of the family 20_memory.md: what a step keeps, who reaches data memory and the devices, the fetch, loads
and stores. The equations of LD and ST, one for each answer of the bus, stand before the obligations that rest on them. -/

namespace Sys2Proof.Machine

open Sys2Proof

/-! ### The end of ST's step: as the store left the state, but xpc, pc, `prefetch` and `draws` -/

@[simp] theorem State.advanceAfterStore_reg (s t : State) (ea : Word) (r : Reg) :
    (s.advanceAfterStore t ea).reg r = t.reg r := by
  rw [State.advanceAfterStore]; split <;> rfl

@[simp] theorem State.advanceAfterStore_xpc (s t : State) (ea : Word) : (s.advanceAfterStore t ea).xpc = t.pc := by
  rw [State.advanceAfterStore]; split <;> rfl

@[simp] theorem State.advanceAfterStore_imem (s t : State) (ea : Word) : (s.advanceAfterStore t ea).imem = t.imem := by
  rw [State.advanceAfterStore]; split <;> rfl

@[simp] theorem State.advanceAfterStore_dmem (s t : State) (ea : Word) : (s.advanceAfterStore t ea).dmem = t.dmem := by
  rw [State.advanceAfterStore]; split <;> rfl

@[simp] theorem State.advanceAfterStore_ibusReady (s t : State) (ea : Word) :
    (s.advanceAfterStore t ea).ibusReady = t.ibusReady := by
  rw [State.advanceAfterStore]; split <;> rfl

@[simp] theorem State.advanceAfterStore_dbusReady (s t : State) (ea : Word) :
    (s.advanceAfterStore t ea).dbusReady = t.dbusReady := by
  rw [State.advanceAfterStore]; split <;> rfl

@[simp] theorem State.advanceAfterStore_io (s t : State) (ea : Word) : (s.advanceAfterStore t ea).io = t.io := by
  rw [State.advanceAfterStore]; split <;> rfl

@[simp] theorem State.advanceAfterStore_cfg (s t : State) (ea : Word) : (s.advanceAfterStore t ea).cfg = t.cfg := by
  rw [State.advanceAfterStore]; split <;> rfl

/-! ### What no instruction writes, and who writes data memory and reaches devices (20_memory.md R50, R53) -/

/-- No instruction writes instruction memory, the parameters or the bus inputs. -/
theorem NextShape.keeps_imem_cfg_inputs {i : Instr} {s t : State} (h : NextShape i s t) :
    t.imem = s.imem ∧ t.cfg = s.cfg ∧ t.ibusReady = s.ibusReady ∧ t.dbusReady = s.dbusReady := by
  cases h with
  | store a b =>
    exact ⟨State.advanceAfterStore_imem .., State.advanceAfterStore_cfg .., State.advanceAfterStore_ibusReady ..,
      State.advanceAfterStore_dbusReady ..⟩
  | _ => exact ⟨rfl, rfl, rfl, rfl⟩

/-- Settles O16: a core that waits or skips writes none of the four, and no shape of a next state does. -/
theorem stepNeverWritesInstructionMemory : Obligations.StepNeverWritesInstructionMemory := by
  intro s t h
  rcases step_next_cases h with ⟨-, rfl⟩ | ⟨w, -, -, rfl⟩ | ⟨i, -, -, hshape⟩
  · exact ⟨rfl, rfl, rfl, rfl⟩
  · exact ⟨rfl, rfl, rfl, rfl⟩
  · exact hshape.keeps_imem_cfg_inputs

/-- Only ST writes data memory. -/
theorem NextShape.dmem_eq_or_store {i : Instr} {s t : State} (h : NextShape i s t) :
    t.dmem = s.dmem ∨ ∃ a b, i = .st a b := by
  cases h with
  | store a b _ hi => exact .inr ⟨a, b, hi⟩
  | _ => exact .inl rfl

/-- Only LD and ST make transfers with devices. -/
theorem NextShape.io_eq_or_isMemory {i : Instr} {s t : State} (h : NextShape i s t) :
    t.io = s.io ∨ isMemory i = true := by
  cases h with
  | loadIo a b r ev hi => exact .inr (hi ▸ rfl)
  | storeIo a b ev hi => exact .inr (hi ▸ rfl)
  | store a b => exact .inl (State.advanceAfterStore_io ..)
  | _ => exact .inl rfl

/-- A step that changes data memory or makes a transfer executes an instruction. -/
theorem executes_of_step_touches {s t : State} (h : step s = .next t) (hne : t.dmem ≠ s.dmem ∨ t.io ≠ s.io) :
    ∃ i, s.executes i ∧ NextShape i s t := by
  rcases step_next_cases h with ⟨-, rfl⟩ | ⟨w, -, -, rfl⟩ | ⟨i, hex, -, hshape⟩
  · simp at hne
  · simp at hne
  · exact ⟨i, hex, hshape⟩

/-! ### Who reads data memory (R53) -/

/-- A register read is the same whatever data memory holds. -/
theorem reg_withDmem (s : State) (m : Memory) (r : Reg) : ({ s with dmem := m } : State).reg r = s.reg r := rfl

/-- Separate storage: the fetch does not read data memory. -/
theorem fetch_withDmem {s : State} (h : s.cfg.unifiedMemory = false) (m : Memory) :
    ({ s with dmem := m } : State).fetch = s.fetch := by
  simp [State.fetch, State.fetchStore, State.fetchStorage, h]

/-- The word executed reads data memory through the fetch only. -/
theorem executedWord_withDmem {s : State} {m : Memory} (h : ({ s with dmem := m } : State).fetch = s.fetch) (i : Instr) :
    ({ s with dmem := m } : State).executedWord i = s.executedWord i := by
  simp [State.executedWord, h]

/-- A branch does not read data memory, and passes it on. -/
theorem branchTo_withDmem (t : Word) (s' s : State) (m : Memory) :
    branchTo t { s' with dmem := m } { s with dmem := m } =
      mapNext (fun u => { u with dmem := m }) (branchTo t s' s) := by
  simp only [branchTo, apply_ite (mapNext _)]
  rfl

/-- An instruction that does not reach data memory does not read it, and passes it on: only the word `UnspecifiedShift` keeps
could come from there, in shared storage. -/
theorem exec_withDmem {i : Instr} {s : State} {m : Memory} (hi : isMemory i = false)
    (hf : ({ s with dmem := m } : State).fetch = s.fetch) :
    exec i { s with dmem := m } = mapNext (fun t => { t with dmem := m }) (exec i s) := by
  cases i with
  | ld a b => simp [isMemory] at hi
  | st a b => simp [isMemory] at hi
  | br n => exact branchTo_withDmem _ s s m
  | bsr n => exact branchTo_withDmem _ (s.setReg linkReg (s.cfg.pcAdd s.pc 2)) s m
  | ret => exact branchTo_withDmem _ s s m
  | lsli a n =>
    simp only [exec, execLsli, reg_withDmem, executedWord_withDmem hf]
    cases lsliResult s.cfg.lsliZero (s.reg a) n <;> rfl
  | ifs code =>
    simp only [exec, execIfs]
    cases condOf s.cfg code with
    | none => rfl
    | some k =>
      dsimp only
      cases condHolds s.cfg.undefFlagRead k s.flags <;> rfl
  | _ => rfl

/-- Settles O18: the shape of the next state shows the writes and transfers; in separate storage the fetch reads no data
memory, and in shared storage the two fetches agree by hypothesis. -/
theorem onlyLoadAndStoreTouchDataMemory : Obligations.OnlyLoadAndStoreTouchDataMemory := by
  refine ⟨fun s t h => ⟨fun hne => ?_, fun hne => ?_⟩, fun i s m hi hshared => exec_withDmem hi ?_⟩
  · obtain ⟨i, hex, hshape⟩ := executes_of_step_touches h (.inl hne)
    obtain ⟨a, b, rfl⟩ := hshape.dmem_eq_or_store.resolve_left hne
    exact ⟨a, b, hex⟩
  · obtain ⟨i, hex, hshape⟩ := executes_of_step_touches h (.inr hne)
    exact ⟨i, hex, hshape.io_eq_or_isMemory.resolve_left hne⟩
  · cases hu : s.cfg.unifiedMemory with
    | true => exact hshared hu
    | false => exact fetch_withDmem hu m

/-! ### LD and ST, one equation for each answer of the bus (R55, R57, R58, R62) -/

section LoadStore

variable {s : State} {b : Reg} (a : Reg)

theorem exec_ld_misaligned (ho : isOdd (s.reg b) = true) :
    exec (.ld a b) s = .fault (.misalignedData (s.reg b) s.xpc) := by
  simp [exec, execLd, State.memRead, ho]

theorem exec_st_misaligned (ho : isOdd (s.reg b) = true) :
    exec (.st a b) s = .fault (.misalignedData (s.reg b) s.xpc) := by
  simp [exec, execSt, State.memWrite, ho]

variable (ho : isOdd (s.reg b) = false)
include ho

theorem exec_ld_wait (hr : s.dbusReady = false) : exec (.ld a b) s = .next s := by
  simp [exec, execLd, State.memRead, ho, hr]

theorem exec_st_wait (hr : s.dbusReady = false) : exec (.st a b) s = .next s := by
  simp [exec, execSt, State.memWrite, ho, hr]

variable (hr : s.dbusReady = true)
include hr

theorem exec_ld_device (hio : admits s.cfg.ioRegions (s.reg b) = true) :
    exec (.ld a b) s = .next (({ s.useDraws 1 with io := s.io ++ [.read (s.reg b)] } : State).setReg a
      (Config.oracle s.draws (s.reg b))).advance := by
  simp [exec, execLd, State.memRead, ho, hr, hio]

/-- A store to a device does not race with a fetch, so its step ends like any other. -/
theorem exec_st_device (hio : admits s.cfg.ioRegions (s.reg b) = true) :
    exec (.st a b) s = .next ({ s with io := s.io ++ [.write (s.reg b) (s.reg a)] } : State).advance := by
  simp [exec, execSt, State.memWrite, State.advanceAfterStore, storeRaces_device, ho, hr, hio]

variable (hio : admits s.cfg.ioRegions (s.reg b) = false)
include hio

theorem exec_ld_memory (hd : admits s.cfg.dmemRegions (s.reg b) = true) :
    exec (.ld a b) s = .next (s.setReg a (Memory.readHalf .data s.cfg.byteOrder s.dmem (s.reg b))).advance := by
  simp [exec, execLd, State.memRead, ho, hr, hio, hd]

theorem exec_st_memory (hd : admits s.cfg.dmemRegions (s.reg b) = true) :
    exec (.st a b) s = .next (s.advanceAfterStore
      { s with dmem := Memory.writeHalf s.cfg.byteOrder s.dmem (s.reg b) (s.reg a) } (s.reg b)) := by
  simp [exec, execSt, State.memWrite, ho, hr, hio, hd]

theorem exec_ld_unmapped (hd : admits s.cfg.dmemRegions (s.reg b) = false) :
    exec (.ld a b) s = .fault (.dataUnmapped (s.reg b) s.xpc) := by
  simp [exec, execLd, State.memRead, ho, hr, hio, hd]

theorem exec_st_unmapped (hd : admits s.cfg.dmemRegions (s.reg b) = false) :
    exec (.st a b) s = .fault (.dataUnmapped (s.reg b) s.xpc) := by
  simp [exec, execSt, State.memWrite, ho, hr, hio, hd]

end LoadStore

/-- A store that completes on a ready bus, outside `io_region`, went to an even address with memory behind it. -/
theorem exec_st_next_memory {a b : Reg} {s t : State} (hr : s.dbusReady = true)
    (hio : admits s.cfg.ioRegions (s.reg b) = false) (h : exec (.st a b) s = .next t) :
    isOdd (s.reg b) = false ∧ t = s.advanceAfterStore
      { s with dmem := Memory.writeHalf s.cfg.byteOrder s.dmem (s.reg b) (s.reg a) } (s.reg b) := by
  cases ho : isOdd (s.reg b) with
  | true => simp [exec_st_misaligned a ho] at h
  | false =>
    cases hd : admits s.cfg.dmemRegions (s.reg b) with
    | false => simp [exec_st_unmapped a ho hr hio hd] at h
    | true =>
      rw [exec_st_memory a ho hr hio hd] at h
      cases h
      exact ⟨rfl, rfl⟩

/-- Settles O38: the store leaves the address, the parameters and the bus as they were, so the load reads the half word
written. -/
theorem loadAfterStoreReturnsTheValue : Obligations.LoadAfterStoreReturnsTheValue := by
  intro a b a' b' s t ho hr hio hd hst hb
  obtain ⟨-, ht⟩ := exec_st_next_memory hr hio hst
  have hea : t.reg b' = s.reg b := by rw [ht, State.advanceAfterStore_reg, reg_withDmem, hb]
  have hcfg : t.cfg = s.cfg := by rw [ht, State.advanceAfterStore_cfg]
  have hready : t.dbusReady = s.dbusReady := by rw [ht, State.advanceAfterStore_dbusReady]
  have hdmem : t.dmem = Memory.writeHalf s.cfg.byteOrder s.dmem (s.reg b) (s.reg a) := by
    rw [ht, State.advanceAfterStore_dmem]
  refine ⟨_, exec_ld_memory a' (hea ▸ ho) (hready.trans hr) (by rw [hcfg, hea, hio]) (by rw [hcfg, hea, hd]), ?_⟩
  rw [State.advance_reg, State.reg_setReg_same, hcfg, hdmem, hea, Memory.readHalf_writeHalf]

/-- Moving on from a state with pc and `skip` of `s` is the sequential step from `s`. -/
theorem sequential_advance {s t : State} (hpc : t.pc = s.pc) (hskip : t.skip = s.skip) : Sequential s t.advance :=
  ⟨hpc, by rw [State.advance_pc, hpc], hskip, rfl⟩

/-- Settles O39: the device equations of LD and ST. -/
theorem deviceAccessesGoToThePlatform : Obligations.DeviceAccessesGoToThePlatform := by
  intro a b s ho hr hio
  constructor
  · exact ⟨_, exec_ld_device a ho hr hio, State.reg_setReg_same .., rfl, rfl, rfl, rfl, rfl,
      fun _ hne => State.reg_setReg_other _ _ hne, sequential_advance rfl rfl⟩
  · exact ⟨_, exec_st_device a ho hr hio, rfl, rfl, rfl, rfl, rfl, fun _ => rfl, sequential_advance rfl rfl⟩

/-- Settles O40: the fault equations of LD and ST. -/
theorem badDataAddressesFault : Obligations.BadDataAddressesFault :=
  fun a _ _ => ⟨fun ho => ⟨exec_ld_misaligned a ho, exec_st_misaligned a ho⟩,
    fun ho hr hio hd => ⟨exec_ld_unmapped a ho hr hio hd, exec_st_unmapped a ho hr hio hd⟩⟩

/-! ### The fetch and the skipped word (R56, R61, R62) -/

/-- The fetch of an odd xpc is a fault before anything else. -/
theorem fetch_of_odd {s : State} (ho : isOdd s.xpc = true) : s.fetch = .bad (.misalignedFetch s.xpc s.xpc) := by
  simp [State.fetch, ho]

/-- The fetch of an even xpc waits while the instruction interface is not ready. -/
theorem fetch_of_not_ready {s : State} (ho : isOdd s.xpc = false) (hr : s.ibusReady = false) : s.fetch = .wait := by
  simp [State.fetch, ho, hr]

/-- On a ready bus, no instruction memory behind an even xpc is a fault. -/
theorem fetch_of_not_admits {s : State} (ho : isOdd s.xpc = false) (hr : s.ibusReady = true)
    (ha : admits s.cfg.imemRegions s.xpc = false) : s.fetch = .bad (.fetchUnmapped s.xpc) := by
  simp [State.fetch, ho, hr, ha]

/-- A fault of the fetch is the step's. -/
theorem step_of_fetch_bad {s : State} {f : Fault} (h : s.fetch = .bad f) : step s = .fault f := by
  simp [step, h]

/-- While the fetch waits, the step leaves the state as it is. -/
theorem step_of_fetch_wait {s : State} (h : s.fetch = .wait) : step s = .next s := by
  simp [step, h]

/-- A word fetched with `skip` set is skipped, whatever word it is. -/
theorem step_of_skip {s : State} {w : Word} (hf : s.fetch = .done w) (hs : s.skip = true) :
    step s = .next s.skipOver := by
  simp [step, hf, hs]

/-- A skipped word keeps every register, both memories and the transfers. -/
theorem keeps_skipOver (s : State) : Keeps [] s s.skipOver :=
  ⟨fun _ _ => rfl, fun _ => rfl, fun _ => rfl, rfl, rfl, rfl, rfl⟩

/-- Settles O9: the step skips over the word. -/
theorem skippedWordHasNoEffect : Obligations.SkippedWordHasNoEffect :=
  fun s _ hf hs => ⟨s.skipOver, step_of_skip hf hs, rfl, rfl, State.skipOver_pc s, rfl, rfl, rfl, keeps_skipOver s⟩

/-- Settles O10: the fetch by its three cases on a ready bus. -/
theorem fetchAnswersOrFaults : Obligations.FetchAnswersOrFaults := by
  intro s hr hp
  refine ⟨fun ho => step_of_fetch_bad (fetch_of_odd ho), fun ho ha => step_of_fetch_bad (fetch_of_not_admits ho hr ha),
    fun ho ha => ?_⟩
  rw [fetch_of_admits ho hr ha, hp]
  rfl

/-- Settles O12: neither interface that is not ready lets the step change anything. -/
theorem coreWaitsForTheBus : Obligations.CoreWaitsForTheBus :=
  fun _ => ⟨fun ho hr => step_of_fetch_wait (fetch_of_not_ready ho hr),
    fun a _ ho hr => ⟨exec_ld_wait a ho hr, exec_st_wait a ho hr⟩⟩

/-! ### A store and the fetch after it in shared storage (R66) -/

/-- A half word at another even address reads as before: two even addresses that differ share no byte. -/
theorem Memory.readHalf_writeHalf_other (k : Storage) (m : Memory) (o : ByteOrder) {x y : Word} (v : Word)
    (hx : isOdd x = false) (hy : isOdd y = false) (hne : y ≠ x) :
    Memory.readHalf k o (Memory.writeHalf o m x v) y = Memory.readHalf k o m y := by
  have hne' : y.toNat ≠ x.toNat := fun e => hne (BitVec.eq_of_toNat_eq e)
  rw [Bool.eq_false_iff, Ne, isOdd_iff] at hx hy
  rw [Memory.readHalf, Memory.readHalf, Memory.byte_congr k (Memory.read_writeHalf_other m o x v ?_),
    Memory.byte_congr k (Memory.read_writeHalf_other m o x v ?_)]
  all_goals omega

/-- The fetch after a store in shared storage: the word fetched early in a race, or else what memory then holds at pc. -/
theorem fetch_advanceAfterStore {s : State} (hu : s.cfg.unifiedMemory = true) (ho : isOdd s.pc = false)
    (hr : s.ibusReady = true) (ha : admits s.cfg.imemRegions s.pc = true) (m : Memory) (ea : Word) :
    (s.advanceAfterStore { s with dmem := m } ea).fetch =
      .done ((s.advanceAfterStore { s with dmem := m } ea).prefetch.getD
        (Memory.readHalf .data s.cfg.byteOrder m s.pc)) := by
  rw [fetch_of_admits (by simpa using ho) (by simpa using hr) (by simpa using ha)]
  simp [State.fetchStorage, State.fetchStore, hu]

/-- After a store the word already fetched is the old word at pc or none; none if the store went elsewhere. -/
theorem prefetch_advanceAfterStore (s t : State) (ea : Word) :
    (s.advanceAfterStore t ea).prefetch = none ∨
      ea = s.pc ∧ (s.advanceAfterStore t ea).prefetch = some (Memory.readHalf .data s.cfg.byteOrder s.dmem s.pc) := by
  rcases advanceAfterStore_cases s t ea with ⟨-, e⟩ | ⟨-, -, hea, e⟩ <;> rw [e]
  · exact .inl rfl
  · cases Config.fetchSawOld s.draws with
    | true => exact .inr ⟨hea, rfl⟩
    | false => exact .inl rfl

/-- Settles O41: with no word fetched early, the fetch answers the stored word at the address stored to and the old word
elsewhere; the word fetched early is the old one. -/
theorem sharedStorageStoreRacesWithFetch : Obligations.SharedStorageStoreRacesWithFetch := by
  intro a b s t hu hpc hir hdr hio ha hst
  obtain ⟨ho, rfl⟩ := exec_st_next_memory hdr hio hst
  rw [fetch_advanceAfterStore hu hpc hir ha]
  rcases prefetch_advanceAfterStore s _ (s.reg b) with e | ⟨hb, e⟩ <;> rw [e]
  · refine ⟨fun hb => .inl ?_, fun hne => ?_⟩
    · rw [hb, Option.getD_none, Memory.readHalf_writeHalf]
    · rw [Option.getD_none, Memory.readHalf_writeHalf_other _ _ _ _ ho hpc hne.symm]
  · exact ⟨fun _ => .inr rfl, fun hne => absurd hb hne⟩

end Sys2Proof.Machine
end

section
/-! SUPPORT. Proofs of the family 30_encoding.md: the decoder and the encoder, what the assembler writes for LSLI and the
branches, the conditions of IFS, `nop`. Each part opens with the facts about the model's functions that its obligations rest
on. -/

namespace Sys2Proof.Machine

open Sys2Proof

/-! ### The encoder (R81, R89, R93) -/

/-- The word of an instruction has its opcode in bits 4:0 and 0 in every bit it does not use. -/
theorem encode_opcode_and_xMask (i : Instr) : Laws.EncodeXBitsZero.Statement i := by
  cases i with
  | or a b => exact Laws.EncodeXBitsZero.or a b
  | and a b => exact Laws.EncodeXBitsZero.and a b
  | xor a b => exact Laws.EncodeXBitsZero.xor a b
  | not a => exact Laws.EncodeXBitsZero.not a
  | nop => exact Laws.EncodeXBitsZero.nop
  | mov a b => exact Laws.EncodeXBitsZero.mov a b
  | add a b => exact Laws.EncodeXBitsZero.add a b
  | sub a b => exact Laws.EncodeXBitsZero.sub a b
  | cmp a b => exact Laws.EncodeXBitsZero.cmp a b
  | lsli a n => exact Laws.EncodeXBitsZero.lsli a n
  | lsri a n => exact Laws.EncodeXBitsZero.lsri a n
  | asri a n => exact Laws.EncodeXBitsZero.asri a n
  | roti a n => exact Laws.EncodeXBitsZero.roti a n
  | movi a n => exact Laws.EncodeXBitsZero.movi a n
  | addi a n => exact Laws.EncodeXBitsZero.addi a n
  | subi a n => exact Laws.EncodeXBitsZero.subi a n
  | cmpi a n => exact Laws.EncodeXBitsZero.cmpi a n
  | ld a b => exact Laws.EncodeXBitsZero.ld a b
  | st a b => exact Laws.EncodeXBitsZero.st a b
  | br n => exact Laws.EncodeXBitsZero.br n
  | bsr n => exact Laws.EncodeXBitsZero.bsr n
  | ret => exact Laws.EncodeXBitsZero.ret
  | ifs code => exact Laws.EncodeXBitsZero.ifs code

@[simp] theorem opcodeField_encode (c : Config) (i : Instr) : opcodeField (encode c i) = opcodeOf c i :=
  (encode_opcode_and_xMask i c).1

@[simp] theorem encode_and_xMask (c : Config) (i : Instr) : encode c i &&& xMask i = 0 :=
  (encode_opcode_and_xMask i c).2

/-- The opcode is no unused bit of any instruction. -/
theorem opcodeField_xMask (i : Instr) : opcodeField (xMask i) = 0 := by
  cases i <;> simp [opcodeField, xMask]

/-- Clearing the unused bits leaves the opcode. -/
theorem opcodeField_and_not_xMask (w : Word) (i : Instr) : opcodeField (w &&& ~~~ xMask i) = opcodeField w := by
  have h : opcodeField (w &&& ~~~ xMask i) = opcodeField w &&& ~~~ opcodeField (xMask i) := by
    refine extract_eq fun k hk => ?_
    simp [opcodeField, hk, show k < 16 by omega]
  rw [h, opcodeField_xMask]
  exact BitVec.and_allOnes

/-! ### A word from its fields -/

/-- Field A as the bits it was read from. -/
theorem ofFin_fieldA (w : Word) : (BitVec.ofFin (fieldA w) : BitVec 4) = w.extractLsb' 12 4 := rfl

section Fields

variable {w : Word} {op : BitVec 5} (h : (opcodeField w).toNat = op.toNat)
include h

/-- FAB and FAI4: bits 7:5 are unused. -/
theorem packAI4_fields : packAI4 (fieldA w) (fieldImm4 w) op = w &&& ~~~ 0x00E0 := by
  refine BitVec.eq_of_getLsbD_eq fun k hk => ?_
  rw [getLsbD_packAI4, ofFin_fieldA, ← BitVec.eq_of_toNat_eq h]
  interval_cases k <;> simp [fieldImm4, opcodeField]

theorem packAB_fields : packAB (fieldA w) (fieldB w) op = w &&& ~~~ 0x00E0 := packAI4_fields h

/-- NOT: B is unused too. -/
theorem packAI4_fieldA : packAI4 (fieldA w) 0 op = w &&& ~~~ 0x0FE0 := by
  refine BitVec.eq_of_getLsbD_eq fun k hk => ?_
  rw [getLsbD_packAI4, ofFin_fieldA, ← BitVec.eq_of_toNat_eq h]
  interval_cases k <;> simp [opcodeField]

/-- IFS: A is unused too. -/
theorem packAI4_fieldImm4 : packAI4 0 (fieldImm4 w) op = w &&& ~~~ 0xF0E0 := by
  refine BitVec.eq_of_getLsbD_eq fun k hk => ?_
  rw [getLsbD_packAI4, ← BitVec.eq_of_toNat_eq h]
  interval_cases k <;> simp [fieldImm4, opcodeField]

/-- RET: all but the opcode is unused. -/
theorem packAI4_opcode : packAI4 0 0 op = w &&& ~~~ 0xFFE0 := by
  refine BitVec.eq_of_getLsbD_eq fun k hk => ?_
  rw [getLsbD_packAI4, ← BitVec.eq_of_toNat_eq h]
  interval_cases k <;> simp [opcodeField]

/-- FAI7: every bit is used. -/
theorem packAI7_fields : packAI7 (fieldA w) (fieldImm7 w) op = w &&& ~~~ 0 := by
  refine BitVec.eq_of_getLsbD_eq fun k hk => ?_
  rw [getLsbD_packAI7, ofFin_fieldA, ← BitVec.eq_of_toNat_eq h]
  interval_cases k <;> simp [fieldImm7, opcodeField]

/-- FI11: every bit is used. -/
theorem packI11_fields : packI11 (fieldImm11 w) op = w &&& ~~~ 0 := by
  refine BitVec.eq_of_getLsbD_eq fun k hk => ?_
  rw [getLsbD_packI11, ← BitVec.eq_of_toNat_eq h]
  interval_cases k <;> simp [fieldImm11, opcodeField]

end Fields

/-! ### The rows of the opcode map -/

/-- The row of an instruction's word is the instruction, with every operand. -/
theorem decodeRow_encode (c : Config) {i : Instr} (h : i.wf = true) : decodeRow c (encode c i) = some i := by
  cases i with
  | or a b =>
    have hne : ¬ (a = 0 ∧ b = 0) := by simpa [Instr.wf, imp_iff_not_or] using h
    simp [decodeRow, encode, opcodeOf, hne]
  | ret => cases hr : c.retOpcode <;> simp [decodeRow, opcodeOf, hr]
  | _ => simp [decodeRow, encode, opcodeOf]

/-- Which words no row is for: of the 32 opcodes the unassigned ones, and one of the two candidates for RET (R91, R94). -/
theorem decodeRow_eq_none_iff (c : Config) (w : Word) :
    decodeRow c w = none ↔ unassignedOpcode c (opcodeField w).toNat = true := by
  have hop := (opcodeField w).isLt
  cases hr : c.retOpcode <;>
  · simp only [decodeRow, unassignedOpcode, hr]
    generalize (opcodeField w).toNat = op at hop
    interval_cases op <;> simp

/-- The instruction of a word's row is well formed, and its word is the one decoded with the unused bits cleared. -/
theorem encode_of_decodeRow {c : Config} {w : Word} {i : Instr} (h : decodeRow c w = some i) :
    i.wf = true ∧ encode c i = w &&& ~~~ xMask i := by
  rw [decodeRow] at h
  split at h
  -- OR, and `nop` where both operands are r0
  case h_1 e =>
    split at h <;> cases h
    case isTrue h0 =>
      obtain ⟨hA, hB⟩ := h0
      have := packAB_fields (op := 0) e
      exact ⟨rfl, by rwa [hA, hB] at this⟩
    case isFalse h0 => exact ⟨by simpa [Instr.wf, imp_iff_not_or] using h0, packAB_fields e⟩
  -- the other instructions of formats FAB and FAI4 that use A and B or imm4
  case h_2 e | h_3 e | h_5 e | h_6 e | h_7 e | h_8 e | h_9 e | h_10 e | h_11 e | h_12 e | h_17 e | h_18 e =>
    cases h
    exact ⟨rfl, packAI4_fields e⟩
  -- NOT
  case h_4 e =>
    cases h
    exact ⟨rfl, packAI4_fieldA e⟩
  -- format FAI7
  case h_13 e | h_14 e | h_15 e | h_16 e =>
    cases h
    exact ⟨rfl, packAI7_fields e⟩
  -- BR, BSR
  case h_19 e | h_20 e =>
    cases h
    exact ⟨rfl, packI11_fields e⟩
  -- the two candidates for RET
  case h_21 e | h_22 e =>
    split at h <;> cases h
    case isTrue hr => exact ⟨rfl, packAI4_opcode (e.trans (by simp [opcodeOf, hr]))⟩
  -- IFS
  case h_23 e =>
    cases h
    exact ⟨rfl, packAI4_fieldImm4 e⟩
  -- an unassigned opcode
  case h_24 => cases h

/-- The instruction of a word's row has the word's opcode. -/
theorem opcodeOf_of_decodeRow {c : Config} {w : Word} {i : Instr} (h : decodeRow c w = some i) :
    opcodeOf c i = opcodeField w := by
  have ⟨_, he⟩ := encode_of_decodeRow h
  rw [← opcodeField_encode, he, opcodeField_and_not_xMask]

/-! ### The decoder -/

/-- All that the decoder can do. -/
theorem decode_cases (c : Config) (w : Word) :
    (decodeRow c w = none ∧ decode c w = .error (.illegalInstruction w)) ∨
    (∃ i, decodeRow c w = some i ∧ c.strictXBits = true ∧ w &&& xMask i ≠ 0 ∧
      decode c w = .error (.reservedBits w)) ∨
    (∃ i, decodeRow c w = some i ∧ (c.strictXBits = true → w &&& xMask i = 0) ∧ decode c w = .ok i) := by
  rw [decode]
  cases hr : decodeRow c w with
  | none => exact .inl ⟨rfl, rfl⟩
  | some i =>
    by_cases hx : c.strictXBits = true ∧ w &&& xMask i ≠ 0
    · have ⟨hs, hne⟩ := hx
      exact .inr (.inl ⟨i, rfl, hs, hne, if_pos hx⟩)
    · exact .inr (.inr ⟨i, rfl, fun hs => by_contra fun hne => hx ⟨hs, hne⟩, if_neg hx⟩)

theorem decode_eq_ok_iff {c : Config} {w : Word} {i : Instr} :
    decode c w = .ok i ↔ decodeRow c w = some i ∧ (c.strictXBits = true → w &&& xMask i = 0) := by
  rcases decode_cases c w with ⟨hr, e⟩ | ⟨j, hr, hs, hne, e⟩ | ⟨j, hr, hx, e⟩ <;> rw [hr, e]
  · simp
  · simp only [reduceCtorEq, Option.some.injEq, false_iff]
    rintro ⟨rfl, hx⟩
    exact hne (hx hs)
  · simp only [Except.ok.injEq, Option.some.injEq]
    exact ⟨fun h => ⟨h, h ▸ hx⟩, And.left⟩

theorem decode_eq_illegal_iff {c : Config} {w : Word} :
    decode c w = .error (.illegalInstruction w) ↔ decodeRow c w = none := by
  rcases decode_cases c w with ⟨hr, e⟩ | ⟨j, hr, -, -, e⟩ | ⟨j, hr, -, e⟩ <;> simp [hr, e]

theorem decode_eq_reserved_iff {c : Config} {w : Word} :
    decode c w = .error (.reservedBits w) ↔
      c.strictXBits = true ∧ ∃ i, decodeRow c w = some i ∧ w &&& xMask i ≠ 0 := by
  rcases decode_cases c w with ⟨hr, e⟩ | ⟨j, hr, hs, hne, e⟩ | ⟨j, hr, hx, e⟩ <;> rw [hr, e]
  · simp
  · exact iff_of_true rfl ⟨hs, j, rfl, hne⟩
  · simpa using hx

/-- Which row a word has does not depend on `STRICT_X_BITS`: the lenient decoder reads that row. -/
theorem decode_lenient_eq_ok_iff {c : Config} {w : Word} {i : Instr} :
    decode { c with strictXBits := false } w = .ok i ↔ decodeRow c w = some i := by
  rw [decode_eq_ok_iff]
  exact ⟨And.left, fun h => ⟨h, nofun⟩⟩

/-- A word has bits in common with a mask exactly where both have a 1. -/
theorem and_ne_zero_iff (w m : Word) : w &&& m ≠ 0 ↔ ∃ k < 16, m.getLsbD k = true ∧ w.getLsbD k = true := by
  rw [Ne, BitVec.eq_of_getLsbD_eq_iff]
  simp [and_comm, -BitVec.getLsbD_eq_getElem]

/-- Clearing bits that are 0 already. -/
theorem and_not_eq_self {w m : Word} (h : w &&& m = 0) : w &&& ~~~ m = w :=
  calc w &&& ~~~ m = (w &&& m) ||| (w &&& ~~~ m) := by rw [h]; exact BitVec.zero_or.symm
    _ = w := by rw [← BitVec.and_or_distrib_left, BitVec.or_not_self, BitVec.and_allOnes]

/-- Settles O2: an instruction's word has its row and no unused bit set. -/
theorem decodeOfEncodeIsIdentity : Obligations.DecodeOfEncodeIsIdentity :=
  fun c i h => decode_eq_ok_iff.2 ⟨decodeRow_encode c h, fun _ => encode_and_xMask c i⟩

/-- Settles O3: with `STRICT_X_BITS` the unused bits that the encoder clears are 0 already. -/
theorem encodeOfDecodeClearsUnusedBits : Obligations.EncodeOfDecodeClearsUnusedBits := by
  intro c w i h
  obtain ⟨hr, hx⟩ := decode_eq_ok_iff.1 h
  obtain ⟨hwf, he⟩ := encode_of_decodeRow hr
  exact ⟨hwf, he, fun hs => he.trans (and_not_eq_self (hx hs))⟩

/-- Settles O4: the rows of the opcode map are those of the assigned opcodes. -/
theorem illegalWordsAreTheUnassignedOpcodes : Obligations.IllegalWordsAreTheUnassignedOpcodes := by
  refine fun c w => ⟨decode_eq_illegal_iff.trans (decodeRow_eq_none_iff c w), fun err h => ?_⟩
  rcases decode_cases c w with ⟨-, e⟩ | ⟨i, -, -, -, e⟩ | ⟨i, -, -, e⟩ <;> rw [e] at h <;> cases h
  · exact .inl rfl
  · exact .inr rfl

/-- Settles O5: the strict decoder refuses a row that has a bit in common with the mask of its instruction. -/
theorem strictDecoderRefusesUsedXBits : Obligations.StrictDecoderRefusesUsedXBits := by
  intro c w
  simp only [decode_eq_reserved_iff, decode_lenient_eq_ok_iff, and_ne_zero_iff]

/-- Settles O6: whether there is a row depends on the opcode only, and the row's instruction has that opcode. -/
theorem opcodeAloneSelectsInstruction : Obligations.OpcodeAloneSelectsInstruction := by
  intro c w w' hs hop
  have hnone : decodeRow c w = none ↔ decodeRow c w' = none := by
    rw [decodeRow_eq_none_iff, decodeRow_eq_none_iff, hop]
  refine ⟨by rw [decode_eq_illegal_iff, decode_eq_illegal_iff, hnone], fun i h => ?_⟩
  obtain ⟨hr, -⟩ := decode_eq_ok_iff.1 h
  obtain ⟨i', hr'⟩ : ∃ i', decodeRow c w' = some i' := Option.ne_none_iff_exists'.1 (by simp [← hnone.not, hr])
  have hx : c.strictXBits = true → w' &&& xMask i' = 0 := by simp [hs]
  exact ⟨opcodeOf_of_decodeRow hr, i', decode_eq_ok_iff.2 ⟨hr', hx⟩,
    by rw [opcodeOf_of_decodeRow hr, opcodeOf_of_decodeRow hr', hop]⟩

/-! ### The step on a word with an unassigned opcode (R94) -/

/-- An executed word the decoder refuses is the step's fault. -/
theorem step_of_decode_error {s : State} {w : Word} {e : DecodeError} (hf : s.fetch = .done w) (hs : s.skip = false)
    (hd : decode s.cfg w = .error e) : step s = .fault (decodeFault e s.xpc) := by
  simp [step, hf, hs, hd]

/-- Settles O11: the decoder refuses the word, and a skipped one it does not see. -/
theorem unassignedOpcodeFaultsUnlessSkipped : Obligations.UnassignedOpcodeFaultsUnlessSkipped := by
  intro s w hf hop
  have hd : decode s.cfg w = .error (.illegalInstruction w) :=
    decode_eq_illegal_iff.2 ((decodeRow_eq_none_iff s.cfg w).2 hop)
  exact ⟨fun hs => step_of_decode_error hf hs hd, fun hs => ⟨_, step_of_skip hf hs, rfl, rfl⟩⟩

/-! ### `nop` (R101) -/

/-- What a logic instruction does beside its result (40_logic.md R120). -/
theorem logicEffect_advance (a : Reg) (r : Word) (s : State) :
    LogicEffect a s (((s.setReg a r).setFlags (logicFlags r s.draws)).useDraws 2).advance where
  n := by simp [logicFlags, nOf]
  z := by simp [logicFlags, zOf_eq]
  v := rfl
  c := rfl
  keeps := ⟨fun _ hr => State.reg_setReg_other s r (by simpa using hr), fun _ => rfl, fun _ => rfl, rfl, rfl, rfl, rfl⟩
  sequential := sequential_advance rfl rfl

/-- Settles O23: `nop` is the row of the word 0, and `or` of r0 with itself is r0. -/
theorem nopIsOrOfRegisterZero : Obligations.NopIsOrOfRegisterZero := by
  have hword : packAB 0 0 0 = 0 := by decide
  refine ⟨fun c => ⟨?_, hword, hword⟩, fun s => ⟨rfl, _, rfl, logicEffect_advance 0 _ s, by simp, fun r => ?_⟩⟩
  · rw [← hword]
    exact decodeOfEncodeIsIdentity c .nop rfl
  · by_cases hr : r = 0 <;> simp [State.reg_setReg, hr]

/-! ### The assembler's LSLI and branches (R87, R88, R100) -/

/-- LSLI with a non-zero field shifts left by 16 minus the field (42_shift.md R141). -/
theorem exec_lsli_of_ne_zero {n : BitVec 4} (hn : n ≠ 0) (a : Reg) (s : State) :
    exec (.lsli a n) s = .next (s.setReg a (s.reg a <<< (16 - n.toNat))).advance := by
  simp only [exec, execLsli, lsliResult, if_pos hn, moveOp]

/-- The field of a distance 1 to 15 is 16 minus the distance, without a wrap. -/
theorem lsliField_toNat {d : Nat} (h1 : 1 ≤ d) : (lsliField d).toNat = 16 - d := by
  rw [lsliField, BitVec.toNat_ofNat]
  omega

theorem assemble_lsli (c : Config) (x : Word) (a : Reg) {d : Nat} (hd : d ≤ 15) :
    assemble c x "lsli" [.reg a, .num d] = some (.lsli a (lsliField d)) := by
  simp [assemble, show (d : Int) ≤ 15 by omega]

/-- Settles O31: 16 minus the field, itself 16 minus the distance, is the distance. -/
theorem lsliAssemblesToItsDistance : Obligations.LsliAssemblesToItsDistance := by
  intro c x a d s h1 hd
  have hfield := lsliField_toNat h1
  have hne : lsliField d ≠ 0 := fun h0 => by simp [h0] at hfield; omega
  refine ⟨_, _, assemble_lsli c x a hd, exec_lsli_of_ne_zero hne a s, ?_⟩
  rw [State.advance_reg, State.reg_setReg_same, BitVec.toNat_shiftLeft, Nat.shiftLeft_eq, hfield,
    show 16 - (16 - d) = d by omega]

/-- A number in the range of imm11 comes through the field unchanged. -/
theorem signExtend_ofInt_11 {q : Int} (h1 : -1024 ≤ q) (h2 : q ≤ 1023) :
    (BitVec.ofInt 11 q).signExtend 16 = BitVec.ofInt 16 q := by
  rw [BitVec.signExtend, BitVec.toInt_ofInt_eq_self (by decide) (by omega) (by omega)]

/-- The offset of the assembler's field is the distance from the delay slot to the address. -/
theorem branchOffset_branchField {scale : BranchScale} {x addr : Word} {n : BitVec 11}
    (h : branchField scale x addr = some n) : branchOffset scale n = addr - (x + 2) := by
  rw [← BitVec.ofInt_toInt (x := addr - (x + 2))]
  simp only [branchField] at h
  generalize (addr - (x + 2)).toInt = d at h ⊢
  cases scale <;> obtain ⟨⟨heven, hlo, hhi⟩, hn⟩ := Option.ite_none_right_eq_some.1 h <;> cases hn
  case one => exact signExtend_ofInt_11 hlo hhi
  case two =>
    calc branchOffset .two (BitVec.ofInt 11 (d / 2))
      _ = BitVec.ofInt 16 (d / 2) * BitVec.ofInt 16 2 := congrArg (· * 2) (signExtend_ofInt_11 hlo hhi)
      _ = BitVec.ofInt 16 d := by rw [← BitVec.ofInt_mul, Int.ediv_mul_cancel_of_emod_eq_zero heven]

/-- Settles O49: the distance from the delay slot, added to the delay slot's address. -/
theorem assembledBranchReachesItsLabel : Obligations.AssembledBranchReachesItsLabel := by
  intro scale x addr n h
  rw [branchOffset_branchField h, BitVec.add_comm, BitVec.sub_add_cancel]

/-! ### The conditions of IFS (R96, R97) -/

/-- IFS with a condition that names no undefined flag writes the condition's negation to `skip`. -/
theorem exec_ifs_defined {s : State} {code : BitVec 4} {k : Cond} (hk : condOf s.cfg code = some k)
    (hdef : condReadsUndef k s.flags = false) :
    exec (.ifs code) s = .next { s.advance with
      skip := !condEval k s.flags.n.value s.flags.v.value s.flags.z.value s.flags.c.value } := by
  simp only [exec, execIfs, hk, condHolds_defined s.cfg.undefFlagRead hdef]

/-- IFS with a code that has no condition is a fault, whatever the flags are. -/
theorem exec_ifs_reserved {s : State} {code : BitVec 4} (hk : condOf s.cfg code = none) :
    exec (.ifs code) s = .fault (.reservedCondition code s.xpc) := by
  simp only [exec, execIfs, hk]

/-- Flags that all have values leave no condition without an answer. -/
theorem condReadsUndef_known (k : Cond) (n v z c : Bool) :
    condReadsUndef k ⟨.known n, .known v, .known z, .known c⟩ = false := by
  cases k <;> rfl

/-- On defined flags IFS lets the next instruction execute exactly if its condition is true. -/
theorem ifs_executesNext_iff {s : State} {n v z c : Bool} (hf : s.flags = ⟨.known n, .known v, .known z, .known c⟩)
    {code : BitVec 4} {k : Cond} (hk : condOf s.cfg code = some k) {p : Prop} (hp : condEval k n v z c = true ↔ p) :
    ∃ t, exec (.ifs code) s = .next t ∧ (t.skip = false ↔ p) := by
  refine ⟨_, exec_ifs_defined hk (hf ▸ condReadsUndef_known k n v z c), ?_⟩
  rw [hf, ← hp]
  simp [Flag.value]

/-- The upper codes with `CC_HIGH` in row order (D6). -/
theorem condOf_inOrder {c : Config} (hc : c.ccHigh = ccHighInOrder) :
    condOf c 0x8 = some .gt ∧ condOf c 0x9 = some .le ∧ condOf c 0xA = some .vc ∧ condOf c 0xB = some .vs ∧
      condOf c 0xC = some .hi ∧ condOf c 0xD = some .la ∧ condOf c 0xE = none ∧ condOf c 0xF = none := by
  simp [condOf, hc, ccHighInOrder]

/-- Settles O55: the last two codes are past the end of the list. -/
theorem reservedConditionsFault : Obligations.ReservedConditionsFault := by
  intro s code hc hcode
  obtain ⟨-, -, -, -, -, -, hE, hF⟩ := condOf_inOrder hc
  rcases hcode with rfl | rfl
  · exact exec_ifs_reserved hE
  · exact exec_ifs_reserved hF

/-- Settles O51: each code's condition, spelt out on the values of the flags. -/
theorem ifsFollowsTheConditionTable : Obligations.IfsFollowsTheConditionTable := by
  intro s n v z c hf
  refine ⟨ifs_executesNext_iff hf (k := .cc) rfl ?_, ifs_executesNext_iff hf (k := .cs) rfl ?_,
    ifs_executesNext_iff hf (k := .ne) rfl ?_, ifs_executesNext_iff hf (k := .eq) rfl ?_,
    ifs_executesNext_iff hf (k := .pl) rfl ?_, ifs_executesNext_iff hf (k := .mi) rfl ?_,
    ifs_executesNext_iff hf (k := .lt) rfl ?_, ifs_executesNext_iff hf (k := .ge) rfl ?_, fun hc => ?high⟩
  case high =>
    obtain ⟨h8, h9, hA, hB, hC, hD, -⟩ := condOf_inOrder hc
    refine ⟨ifs_executesNext_iff hf h8 ?_, ifs_executesNext_iff hf h9 ?_, ifs_executesNext_iff hf hA ?_,
      ifs_executesNext_iff hf hB ?_, ifs_executesNext_iff hf hC ?_, ifs_executesNext_iff hf hD ?_⟩
    all_goals simp [condEval]
  all_goals simp [condEval]

/-! ### The conditions after CMP (R96, last sentence) -/

/-- N and V of a difference differ exactly if the signed comparison holds. -/
theorem sub_sign_xor_overflow (x y : Word) :
    ((x - y)[15] ^^ (x[15] != y[15] && (x - y)[15] != x[15])) = decide (x.toInt < y.toInt) := by
  rw [sub_overflow, bit15_eq, sub_toNat, toInt_eq, toInt_eq, Bool.eq_iff_iff]
  have hx := x.isLt
  have hy := y.isLt
  simp only [bne_iff_ne, ne_eq, decide_eq_decide, decide_eq_true_eq]
  split <;> split <;> omega

/-- Z of a difference is equality. -/
theorem zOf_sub (x y : Word) : zOf (x - y) = .known (decide (x = y)) := by
  rw [zOf, Flag.known.injEq, Bool.eq_iff_iff, beq_iff_eq, decide_eq_true_iff, sub_eq_zero]

/-- The flags CMP leaves, C the borrow: Z is equality, C the unsigned comparison, N ^^ V the signed one. -/
theorem flags_of_exec_cmp {a b : Reg} {s t : State} (hb : s.cfg.subCarryIsBorrow = true)
    (h : exec (.cmp a b) s = .next t) :
    ∃ n v, t.flags = ⟨.known n, .known v, .known (decide (s.reg a = s.reg b)),
        .known (decide ((s.reg a).toNat < (s.reg b).toNat))⟩ ∧
      (n ^^ v) = decide ((s.reg a).toInt < (s.reg b).toInt) := by
  cases h
  refine ⟨_, _, ?_, sub_sign_xor_overflow (s.reg a) (s.reg b)⟩
  simp [subFlags, nOf, zOf_sub, hb]

theorem cfg_of_exec_cmp {a b : Reg} {s t : State} (h : exec (.cmp a b) s = .next t) : t.cfg = s.cfg := by
  cases h
  rfl

/-- Settles O52: the conditions read those three comparisons. -/
theorem conditionsAfterCompareMeanComparisons : Obligations.ConditionsAfterCompareMeanComparisons := by
  intro a b s t hb h
  obtain ⟨n, v, hf, hlt⟩ := flags_of_exec_cmp hb h
  refine ⟨ifs_executesNext_iff hf (k := .eq) rfl ?_, ifs_executesNext_iff hf (k := .ne) rfl ?_,
    ifs_executesNext_iff hf (k := .lt) rfl ?_, ifs_executesNext_iff hf (k := .ge) rfl ?_,
    ifs_executesNext_iff hf (k := .cs) rfl ?_, ifs_executesNext_iff hf (k := .cc) rfl ?_, fun hc => ?high⟩
  case high =>
    obtain ⟨h8, h9, -, -, hC, hD, -⟩ := condOf_inOrder ((cfg_of_exec_cmp h).symm ▸ hc : t.cfg.ccHigh = _)
    refine ⟨ifs_executesNext_iff hf h8 ?_, ifs_executesNext_iff hf h9 ?_, ifs_executesNext_iff hf hC ?_,
      ifs_executesNext_iff hf hD ?_⟩
    · simp [condEval, hlt, ← BitVec.toInt_inj]; omega
    · simp [condEval, hlt, ← BitVec.toInt_inj]; omega
    · simp [condEval, ← BitVec.toNat_inj]; omega
    · simp [condEval, ← BitVec.toNat_inj]; omega
  all_goals simp [condEval, hlt]

end Sys2Proof.Machine
end

section
/-! SUPPORT. Proofs of the family 40_logic.md: the effect of the logic instructions and of NOT, and their words. -/

namespace Sys2Proof.Machine

open Sys2Proof

/-- OR, AND and XOR complete with their result in x[a] (R120). -/
theorem logicOp_next (a : Reg) (r : Word) (s : State) :
    ∃ t, logicOp a r s = .next t ∧ LogicEffect a s t ∧ t.reg a = r :=
  ⟨_, rfl, logicEffect_advance a r s, State.reg_setReg_same s a r⟩

/-- An instruction that writes x[a] and no flag completes with its result there. -/
theorem moveOp_next (a : Reg) (v : Word) (s : State) :
    ∃ t, moveOp a v s = .next t ∧ MoveEffect a s t ∧ t.reg a = v :=
  ⟨_, rfl,
    { flags := rfl
      draws := rfl
      keeps := ⟨fun _ hr => State.reg_setReg_other s v (by simpa using hr), fun _ => rfl, fun _ => rfl, rfl, rfl, rfl, rfl⟩
      sequential := sequential_advance rfl rfl },
    State.reg_setReg_same s a v⟩

/-- NOT writes like a move: a register and no flag (R124). -/
theorem exec_not_next (a : Reg) (s : State) :
    ∃ t, exec (.not a) s = .next t ∧ MoveEffect a s t ∧ t.reg a = ~~~ s.reg a :=
  moveOp_next a (~~~ s.reg a) s

/-- `or` assembles to its word, `or r0 r0` by way of `nop`, whose word is the same (R101, R121). -/
theorem assemblesTo_or (a b : Reg) :
    AssemblesTo "or" [.reg a, .reg b] (if a = 0 ∧ b = 0 then .nop else .or a b) (a.val * 4096 + b.val * 256) := by
  refine fun c x => ⟨rfl, ?_⟩
  split
  case isTrue h0 =>
    obtain ⟨rfl, rfl⟩ := h0
    simp [encode, opcodeOf, packAB_toNat]
  case isFalse => simp [encode, opcodeOf, packAB_toNat]

/-- Settles O21: each is the shared logic operation, whose result is the bitwise one. -/
theorem logicInstructionsCompute : Obligations.LogicInstructionsCompute := by
  intro a b s
  obtain ⟨tOr, hOr, effOr, rOr⟩ := logicOp_next a (s.reg a ||| s.reg b) s
  obtain ⟨tAnd, hAnd, effAnd, rAnd⟩ := logicOp_next a (s.reg a &&& s.reg b) s
  obtain ⟨tXor, hXor, effXor, rXor⟩ := logicOp_next a (s.reg a ^^^ s.reg b) s
  refine ⟨⟨tOr, hOr, effOr, fun k _ => ?_⟩, ⟨tAnd, hAnd, effAnd, fun k _ => ?_⟩, ⟨tXor, hXor, effXor, fun k _ => ?_⟩,
    assemblesTo_or a b, fun c x => ⟨rfl, by simp [encode, opcodeOf, packAB_toNat]⟩,
    fun c x => ⟨rfl, by simp [encode, opcodeOf, packAB_toNat]⟩⟩
  · rw [rOr, BitVec.getLsbD_or]
  · rw [rAnd, BitVec.getLsbD_and]
  · rw [rXor, BitVec.getLsbD_xor]

/-- Settles O24: NOT after NOT writes the complement of the complement to the same register. -/
theorem notInvertsEveryBit : Obligations.NotInvertsEveryBit := by
  intro a s
  obtain ⟨t, ht, efft, rt⟩ := exec_not_next a s
  obtain ⟨u, hu, effu, ru⟩ := exec_not_next a t
  have hrestore : ∀ r, u.reg r = s.reg r := fun r => by
    by_cases hr : r = a
    · rw [hr, ru, rt, BitVec.not_not]
    · have hne : r ∉ [a] := by simpa using hr
      rw [effu.keeps.regs r hne, efft.keeps.regs r hne]
  refine ⟨t, ht, efft, ?_, fun k hk => ?_, ⟨u, hu, hrestore⟩,
    fun c x => ⟨rfl, by simp [encode, opcodeOf, packAB_toNat]⟩⟩
  · rw [rt, BitVec.toNat_not]
  · rw [rt, BitVec.getLsbD_not, decide_eq_true hk, Bool.true_and]

end Sys2Proof.Machine
end

section
/-! SUPPORT. Proofs of the family 41_move_arith.md: the flags of a sum and of a difference, the shared operations of the
register and the immediate forms, the lines that assemble to a word of format FAB or FAI7. -/

namespace Sys2Proof.Machine

open Sys2Proof

/-! ### The flags as arithmetic (R131, R132) -/

theorem sumFlags_addFlags (x y : Word) : SumFlags x y (addFlags x y) where
  n := by simp only [addFlags, add_low, nOf_eq, BitVec.toNat_add, Nat.reducePow]
  z := by simp only [addFlags, add_low, zOf_eq, BitVec.toNat_add, Nat.reducePow]
  c := congrArg Flag.known (add_carry x y)
  v := by simp only [addFlags, add_low, add_overflow]

/-- The 16-bit difference is the integers' difference modulo 2^16. -/
theorem sub_toNat_emod (x y : Word) : ((x - y).toNat : Int) = (x.toNat - y.toNat : Int) % 65536 := by
  have := y.isLt
  rw [sub_toNat]
  omega

theorem differenceFlags_subFlags (b : Bool) (x y : Word) : DifferenceFlags b x y (subFlags b x y) where
  n := by
    rw [← sub_toNat_emod, subFlags, nOf_eq, Flag.known.injEq, decide_eq_decide]
    omega
  z := zOf_sub x y
  c := by cases b <;> simp [subFlags]
  v := congrArg Flag.known (sub_overflow x y)

/-! ### The operations the register and the immediate forms share -/

theorem keeps_setReg_setFlags_advance (a : Reg) (v : Word) (f : Flags) (s : State) :
    Keeps [a] s ((s.setReg a v).setFlags f).advance :=
  ⟨fun _ hr => State.reg_setReg_other s v (by simpa using hr), fun _ => rfl, fun _ => rfl, rfl, rfl, rfl, rfl⟩

theorem keeps_setFlags_advance (f : Flags) (s : State) : Keeps [] s (s.setFlags f).advance :=
  ⟨fun _ _ => rfl, fun _ => rfl, fun _ => rfl, rfl, rfl, rfl, rfl⟩

theorem addOp_next (a : Reg) (y : Word) (s : State) :
    ∃ t, addOp a y s = .next t ∧ SumFlags (s.reg a) y t.flags ∧
      (t.reg a).toNat = ((s.reg a).toNat + y.toNat) % 65536 ∧ Keeps [a] s t ∧ Sequential s t ∧ t.draws = s.draws :=
  ⟨_, rfl, sumFlags_addFlags (s.reg a) y,
    (congrArg BitVec.toNat (State.reg_setReg_same s a _)).trans (BitVec.toNat_add ..),
    keeps_setReg_setFlags_advance .., sequential_advance rfl rfl, rfl⟩

theorem subOp_next (a : Reg) (y : Word) (s : State) :
    ∃ t, subOp a y s = .next t ∧ DifferenceFlags s.cfg.subCarryIsBorrow (s.reg a) y t.flags ∧
      ((t.reg a).toNat : Int) = ((s.reg a).toNat - y.toNat : Int) % 65536 ∧
      Keeps [a] s t ∧ Sequential s t ∧ t.draws = s.draws :=
  ⟨_, rfl, differenceFlags_subFlags _ (s.reg a) y,
    (congrArg (fun r : Word => (r.toNat : Int)) (State.reg_setReg_same s a _)).trans (sub_toNat_emod ..),
    keeps_setReg_setFlags_advance .., sequential_advance rfl rfl, rfl⟩

theorem cmpOp_next (a : Reg) (y : Word) (s : State) :
    ∃ t, cmpOp a y s = .next t ∧ DifferenceFlags s.cfg.subCarryIsBorrow (s.reg a) y t.flags ∧
      Keeps [] s t ∧ Sequential s t ∧ t.draws = s.draws :=
  ⟨_, rfl, differenceFlags_subFlags _ (s.reg a) y, keeps_setFlags_advance .., sequential_advance rfl rfl, rfl⟩

/-! ### The immediate operand as a number (30_encoding.md R86) -/

theorem zext7_eq (n : BitVec 7) : zext7 n = BitVec.ofNat 16 n.toNat := (BitVec.ofNat_toNat 16 n).symm

theorem zext7_toNat (n : BitVec 7) : (zext7 n).toNat = n.toNat := BitVec.toNat_setWidth_of_le (by decide)

theorem sext7_eq (n : BitVec 7) : sext7 n = BitVec.ofInt 16 n.toInt := rfl

/-- Settles O26: ADD adds the register, ADDI the zero-extended field, by the shared addition. -/
theorem additionSetsSumAndFlags : Obligations.AdditionSetsSumAndFlags := by
  refine ⟨fun a b s => addOp_next a (s.reg b) s, fun a n s => ?_⟩
  rw [← zext7_eq, ← zext7_toNat]
  exact addOp_next a (zext7 n) s

/-- Settles O27: SUB subtracts the register, SUBI the zero-extended field, by the shared subtraction. -/
theorem subtractionSetsDifferenceAndFlags : Obligations.SubtractionSetsDifferenceAndFlags := by
  refine ⟨fun a b s => subOp_next a (s.reg b) s, fun a n s => ?_⟩
  rw [← zext7_eq, ← zext7_toNat]
  exact subOp_next a (zext7 n) s

/-- Settles O28: CMP compares with the register, CMPI with the sign-extended field, by the shared comparison. -/
theorem compareSetsFlagsOnly : Obligations.CompareSetsFlagsOnly := by
  refine ⟨fun a b s => cmpOp_next a (s.reg b) s, fun a n s => ?_⟩
  rw [← sext7_eq]
  exact cmpOp_next a (sext7 n) s

/-! ### Lines and their words (30_encoding.md R82, R86, R98) -/

/-- A line whose instruction has format FAB, from its opcode. -/
theorem assemblesTo_packAB {mnemonic : String} {operands : List AsmOperand} {i : Instr} {a b : Reg} (op : BitVec 5)
    (h : ∀ c x, assemble c x mnemonic operands = some i ∧ encode c i = packAB a b op) :
    AssemblesTo mnemonic operands i (a.val * 4096 + b.val * 256 + op.toNat) := fun c x =>
  ⟨(h c x).1, (h c x).2 ▸ packAB_toNat a b op⟩

/-- A line whose instruction has format FAI7, from its opcode. -/
theorem assemblesTo_packAI7 {mnemonic : String} {operands : List AsmOperand} {i : Instr} {a : Reg} {n : BitVec 7}
    (op : BitVec 5) (h : ∀ c x, assemble c x mnemonic operands = some i ∧ encode c i = packAI7 a n op) :
    AssemblesTo mnemonic operands i (a.val * 4096 + n.toNat * 32 + op.toNat) := fun c x =>
  ⟨(h c x).1, (h c x).2 ▸ packAI7_toNat a n op⟩

/-- A field written as its unsigned number, where the range takes it, is that field. -/
theorem numField_toNat {w : Nat} {hi : Int} (n : BitVec w) (h : n.toNat ≤ hi) : numField w 0 hi n.toNat = some n := by
  rw [numField, if_pos ⟨Int.natCast_nonneg _, h⟩, BitVec.ofInt_natCast, BitVec.ofNat_toNat, BitVec.setWidth_eq]

/-- A field written as its signed number, where the range takes it, is that field. -/
theorem numField_toInt {w : Nat} {lo hi : Int} (n : BitVec w) (hlo : lo ≤ n.toInt) (hhi : n.toInt ≤ hi) :
    numField w lo hi n.toInt = some n := by
  rw [numField, if_pos ⟨hlo, hhi⟩, BitVec.ofInt_toInt]

theorem numField_unsigned7 (n : BitVec 7) : numField 7 0 127 n.toNat = some n := numField_toNat n (by omega)

theorem numField_signed7 (n : BitVec 7) : numField 7 (-64) 63 n.toInt = some n :=
  numField_toInt n (BitVec.le_toInt n) (Int.le_of_lt_add_one (BitVec.toInt_lt (x := n)))

theorem encode_lsli_toNat (c : Config) (a : Reg) {d : Nat} (h1 : 1 ≤ d) :
    (encode c (.lsli a (lsliField d))).toNat = a.val * 4096 + (16 - d) * 256 + 0b01000 := by
  rw [← lsliField_toNat h1]
  exact packAI4_toNat a (lsliField d) 0b01000

/-- Settles O57: every word is its format's packing of the operands and the opcode. -/
theorem remainingInstructionsHaveTheirWords : Obligations.RemainingInstructionsHaveTheirWords := by
  refine ⟨fun a b => ⟨?add, ?sub, ?cmp, ?ld, ?st⟩, fun a n => ⟨?addi, ?subi, ?cmpi⟩, fun a d h1 hd => ?lsli,
    fun c => ⟨fun n => ⟨?br, ?bsr⟩, fun hr => ?ret0, fun hr => ?ret1, fun code => ?ifs⟩⟩
  case add => exact assemblesTo_packAB 0b00101 fun _ _ => ⟨rfl, rfl⟩
  case sub => exact assemblesTo_packAB 0b00110 fun _ _ => ⟨rfl, rfl⟩
  case cmp => exact assemblesTo_packAB 0b00111 fun _ _ => ⟨rfl, rfl⟩
  case ld => exact assemblesTo_packAB 0b10000 fun _ _ => ⟨rfl, rfl⟩
  case st => exact assemblesTo_packAB 0b10100 fun _ _ => ⟨rfl, rfl⟩
  case addi => exact assemblesTo_packAI7 0b01101 fun _ _ => ⟨congrArg (Option.map _) (numField_unsigned7 n), rfl⟩
  case subi => exact assemblesTo_packAI7 0b01110 fun _ _ => ⟨congrArg (Option.map _) (numField_unsigned7 n), rfl⟩
  case cmpi => exact assemblesTo_packAI7 0b01111 fun _ _ => ⟨congrArg (Option.map _) (numField_signed7 n), rfl⟩
  case lsli => exact fun c x => ⟨assemble_lsli c x a hd, encode_lsli_toNat c a h1⟩
  case br => exact packI11_toNat n 0b11000
  case bsr => exact packI11_toNat n 0b11001
  case ret0 => simp [encode, opcodeOf, packAB_toNat, hr]
  case ret1 => simp [encode, opcodeOf, packAB_toNat, hr]
  case ifs => simp [encode, opcodeOf, packAI4_toNat]

/-- Settles O25: with A = B the value written to x[A] is the one it holds. -/
theorem movCopiesRegister : Obligations.MovCopiesRegister := by
  intro a b s
  obtain ⟨t, ht, hmove, hcopy⟩ := moveOp_next a (s.reg b) s
  refine ⟨t, ht, hmove, hcopy, fun hab r => ?_, assemblesTo_packAB 0b00100 fun _ _ => ⟨rfl, rfl⟩⟩
  by_cases hr : r = a
  · rw [hr, hcopy, hab]
  · exact hmove.keeps.regs r (by simpa using hr)

end Sys2Proof.Machine
end

section
/-! SUPPORT. Proofs of the family 42_shift.md: each shift as arithmetic on its operand, the lines that assemble to
a word of format FAI4, LSLI by the value of `LSLI_ZERO`. -/

namespace Sys2Proof.Machine

open Sys2Proof

/-! ### The results as arithmetic (R142 to R144) -/

theorem lsriResult_toNat (v : Word) (n : BitVec 4) : (lsriResult v n).toNat = v.toNat / 2 ^ n.toNat := by
  rw [lsriResult, BitVec.toNat_ushiftRight, Nat.shiftRight_eq_div_pow]

/-- By a positive divisor the integers' `/` rounds toward minus infinity, as the arithmetic shift does. -/
theorem asriResult_toInt (v : Word) (n : BitVec 4) : (asriResult v n).toInt = v.toInt / 2 ^ n.toNat := by
  rw [asriResult, BitVec.toInt_sshiftRight, Int.shiftRight_eq_div_pow, Nat.cast_pow, Nat.cast_ofNat]

/-- Distance 0, which the model treats apart, is the rotation by 0. -/
theorem rotiResult_eq_rotateRight (v : Word) (n : BitVec 4) : rotiResult v n = v.rotateRight n.toNat := by
  rw [BitVec.rotateRight, Nat.mod_eq_of_lt n.isLt, BitVec.rotateRightAux, rotiResult]
  split
  case isTrue h0 => simp [h0]
  case isFalse => rfl

/-- The low `n` bits come back in at the top; the others move down by `n`. -/
theorem rotiResult_getLsbD (v : Word) (n : BitVec 4) {k : Nat} (hk : k < 16) :
    (rotiResult v n).getLsbD ((k + 16 - n.toNat) % 16) = v.getLsbD k := by
  have hn := n.isLt
  rw [rotiResult_eq_rotateRight, BitVec.getLsbD_rotateRight, Nat.mod_eq_of_lt hn, Bool.cond_decide]
  rcases Nat.lt_or_ge k n.toNat with hlow | hhigh
  · rw [show (k + 16 - n.toNat) % 16 = 16 - n.toNat + k by omega, if_neg (by omega), decide_eq_true (by omega),
      Bool.true_and, Nat.add_sub_cancel_left]
  · rw [show (k + 16 - n.toNat) % 16 = k - n.toNat by omega, if_pos (by omega), Nat.add_sub_cancel' hhigh]

/-! ### Lines of format FAI4 (30_encoding.md R82, R86, R98) -/

/-- A line whose instruction has format FAI4, from its opcode. -/
theorem assemblesTo_packAI4 {mnemonic : String} {operands : List AsmOperand} {i : Instr} {a : Reg} {n : BitVec 4}
    (op : BitVec 5) (h : ∀ c x, assemble c x mnemonic operands = some i ∧ encode c i = packAI4 a n op) :
    AssemblesTo mnemonic operands i (a.val * 4096 + n.toNat * 256 + op.toNat) := fun c x =>
  ⟨(h c x).1, (h c x).2 ▸ packAI4_toNat a n op⟩

theorem numField_unsigned4 (n : BitVec 4) : numField 4 0 15 n.toNat = some n := numField_toNat n (by omega)

/-! ### LSLI by the value of `LSLI_ZERO` (R141) -/

/-- LSLI that has a result completes with it in x[a]. -/
theorem exec_lsli_next {a : Reg} {n : BitVec 4} {s : State} {z : LsliZero} {r : Word} (hz : s.cfg.lsliZero = z)
    (h : lsliResult z (s.reg a) n = some r) :
    ∃ t, exec (.lsli a n) s = .next t ∧ MoveEffect a s t ∧ t.reg a = r := by
  simp only [exec, execLsli, hz, h]
  exact moveOp_next a r s

/-- LSLI that has none is the fault of the word being executed. -/
theorem exec_lsli_fault {a : Reg} {n : BitVec 4} {s : State} {z : LsliZero} (hz : s.cfg.lsliZero = z)
    (h : lsliResult z (s.reg a) n = none) :
    exec (.lsli a n) s = .fault (.unspecifiedShift (s.executedWord (.lsli a n)) s.xpc) := by
  simp only [exec, execLsli, hz, h]

/-! ### The obligations -/

/-- Settles O30: a left shift multiplies by a power of two and drops the carry. -/
theorem lsliShiftsBySixteenMinusField : Obligations.LsliShiftsBySixteenMinusField := by
  intro a n s hn
  obtain ⟨t, ht, hmove, hres⟩ := exec_lsli_next (a := a) (s := s) rfl (if_pos hn)
  exact ⟨t, ht, hmove, by rw [hres, BitVec.toNat_shiftLeft, Nat.shiftLeft_eq]⟩

/-- Settles O33: `>>u` divides the unsigned value. -/
theorem lsriDividesUnsigned : Obligations.LsriDividesUnsigned := by
  intro a n s
  obtain ⟨t, ht, hmove, hres⟩ := moveOp_next a (lsriResult (s.reg a) n) s
  exact ⟨t, ht, hmove, hres ▸ lsriResult_toNat (s.reg a) n,
    assemblesTo_packAI4 0b01001 fun _ _ => ⟨congrArg (Option.map _) (numField_unsigned4 n), rfl⟩⟩

/-- Settles O34: `>>s` divides the signed value. -/
theorem asriDividesSignedRoundingDown : Obligations.AsriDividesSignedRoundingDown := by
  intro a n s
  obtain ⟨t, ht, hmove, hres⟩ := moveOp_next a (asriResult (s.reg a) n) s
  exact ⟨t, ht, hmove, hres ▸ asriResult_toInt (s.reg a) n,
    assemblesTo_packAI4 0b01010 fun _ _ => ⟨congrArg (Option.map _) (numField_unsigned4 n), rfl⟩⟩

/-- Settles O35: the two shifts of ROTI are one rotation. -/
theorem rotiRotatesRight : Obligations.RotiRotatesRight := by
  intro a n s
  obtain ⟨t, ht, hmove, hres⟩ := moveOp_next a (rotiResult (s.reg a) n) s
  exact ⟨t, ht, hmove, fun k hk => hres ▸ rotiResult_getLsbD (s.reg a) n hk,
    assemblesTo_packAI4 0b01011 fun _ _ => ⟨congrArg (Option.map _) (numField_unsigned4 n), rfl⟩⟩

/-- Settles O32: `LSLI_ZERO` decides the result of field 0; `either` clears the register or leaves it, by a free value. -/
theorem lsliFieldZeroFollowsItsParameter : Obligations.LsliFieldZeroFollowsItsParameter := by
  intro a s
  refine ⟨fun hz => exec_lsli_next hz rfl, fun hz => ?zero, fun hz => ?either, fun hz => ?refuse⟩
  case zero =>
    obtain ⟨t, ht, hmove, hres⟩ := exec_lsli_next (a := a) (n := 0) hz rfl
    exact ⟨t, ht, hmove, congrArg BitVec.toNat hres⟩
  case either =>
    obtain ⟨t, ht, hmove, hres⟩ := exec_lsli_next (a := a) (n := 0) hz rfl
    refine ⟨t, ht, hmove, ?_⟩
    rw [hres]
    split
    case isTrue => exact .inr rfl
    case isFalse => exact .inl rfl
  case refuse =>
    have hfault := exec_lsli_fault (a := a) (n := 0) hz rfl
    exact ⟨⟨_, hfault⟩, fun w hw => executedWord_of_fetch hw (.lsli a 0) ▸ hfault⟩

end Sys2Proof.Machine
end

section
/-! SUPPORT. Proofs of the family 43_immediate.md: the sign-extended field as a signed number and its range. -/

namespace Sys2Proof.Machine

open Sys2Proof

/-- `sext_7` keeps the field's signed value (30_encoding.md R86). -/
theorem sext7_toInt (n : BitVec 7) : (sext7 n).toInt = n.toInt := BitVec.toInt_signExtend_of_le (by decide)

theorem sext7_range (n : BitVec 7) : -64 ≤ (sext7 n).toInt ∧ (sext7 n).toInt ≤ 63 := by
  rw [sext7_toInt]
  exact ⟨BitVec.le_toInt n, Int.le_of_lt_add_one (BitVec.toInt_lt (x := n))⟩

/-- Settles O29: MOVI moves the sign-extended field by the shared move. -/
theorem moviLoadsSignedImmediate : Obligations.MoviLoadsSignedImmediate := by
  intro a n s
  obtain ⟨t, ht, hmove, hres⟩ := moveOp_next a (sext7 n) s
  obtain ⟨hlo, hhi⟩ := sext7_range n
  exact ⟨t, ht, hmove, hres ▸ sext7_toInt n, hres ▸ hlo, hres ▸ hhi,
    assemblesTo_packAI7 0b01100 fun _ _ => ⟨congrArg (Option.map _) (numField_signed7 n), rfl⟩⟩

end Sys2Proof.Machine
end

section
/-! SUPPORT. Proofs of the family 44_load_store.md: LD and ST where memory answers. Their equations stand with the family
20_memory.md; here is the rest of the end of ST's step. -/

namespace Sys2Proof.Machine

open Sys2Proof

@[simp] theorem State.advanceAfterStore_pc (s t : State) (ea : Word) : (s.advanceAfterStore t ea).pc = t.pc + 2 := by
  rcases advanceAfterStore_cases s t ea with ⟨-, e⟩ | ⟨-, -, -, e⟩ <;> rw [e] <;> exact State.advance_pc t

@[simp] theorem State.advanceAfterStore_skip (s t : State) (ea : Word) : (s.advanceAfterStore t ea).skip = t.skip := by
  rcases advanceAfterStore_cases s t ea with ⟨-, e⟩ | ⟨-, -, -, e⟩ <;> rw [e] <;> rfl

/-- Without a race ST's step ends like any other (20_memory.md R66). -/
theorem advanceAfterStore_of_not_races {s : State} {ea : Word} (h : s.storeRaces ea = false) (t : State) :
    s.advanceAfterStore t ea = t.advance := by
  simp [State.advanceAfterStore, h]

/-- Settles O36: on memory LD is a move of the half word read. -/
theorem loadReadsDataMemory : Obligations.LoadReadsDataMemory := by
  intro a b s ho hr hio hd
  obtain ⟨t, ht, hmove, hres⟩ := moveOp_next a (Memory.readHalf .data s.cfg.byteOrder s.dmem (s.reg b)) s
  exact ⟨t, (exec_ld_memory a ho hr hio hd).trans ht, hmove, hres⟩

/-- Settles O37: the step replaces data memory by itself with one half word written, and its end touches neither memory. -/
theorem storeWritesDataMemory : Obligations.StoreWritesDataMemory := by
  intro a b s ho hr hio hd
  obtain ⟨hfirst, hsecond⟩ := Memory.read_writeHalf s.dmem s.cfg.byteOrder (s.reg b) (s.reg a)
  refine ⟨_, exec_st_memory a ho hr hio hd, ?_⟩
  rw [State.advanceAfterStore_dmem, State.advanceAfterStore_imem]
  refine ⟨hfirst, hsecond, fun _ hk => Memory.read_writeHalf_other _ _ _ _ hk, fun _ => rfl,
    State.advanceAfterStore_reg _ _ _, State.advanceAfterStore_flags .., State.advanceAfterStore_cfg ..,
    State.advanceAfterStore_io .., State.advanceAfterStore_ibusReady .., State.advanceAfterStore_dbusReady ..,
    State.advanceAfterStore_xpc .., State.advanceAfterStore_pc .., State.advanceAfterStore_skip .., fun hrace => ?_⟩
  rw [advanceAfterStore_of_not_races hrace]
  exact ⟨rfl, rfl⟩

end Sys2Proof.Machine
end

section
/-! SUPPORT. Proofs of the family 45_branch.md: the target of a branch, the one equation of BR, BSR and RET, and the step in
the delay slot. -/

namespace Sys2Proof.Machine

open Sys2Proof

/-! ### The target of a branch (R171, R172, R173) -/

/-- Where the branch `i` goes: relative to pc, or to r15 (`targets_iff`; of no other instruction is it asked). -/
def State.branchTarget (s : State) : Instr → Word
  | .br n => s.pc + branchOffset s.cfg.branchScale n
  | .bsr n => s.pc + branchOffset s.cfg.branchScale n
  | _ => s.reg linkReg

/-- A word is a sum modulo 2^16 exactly if it is the sum of words. -/
theorem toNat_eq_add_emod_iff (t p : Word) (d : Int) :
    (t.toNat : Int) = (p.toNat + d) % 65536 ↔ t = p + BitVec.ofInt 16 d := by
  have hsum : p + BitVec.ofInt 16 d = BitVec.ofInt 16 (p.toNat + d) := by
    rw [BitVec.ofInt_add, BitVec.ofInt_natCast, BitVec.ofNat_toNat, BitVec.setWidth_eq]
  rw [hsum, ← BitVec.toNat_inj, BitVec.toNat_ofInt]
  omega

/-- The offset is the scaled signed field (30_encoding.md R87). -/
theorem branchOffset_one (n : BitVec 11) : branchOffset .one n = BitVec.ofInt 16 (n.toInt * 1) := by
  rw [Int.mul_one]; rfl

theorem branchOffset_two (n : BitVec 11) : branchOffset .two n = BitVec.ofInt 16 (n.toInt * 2) := by
  rw [BitVec.ofInt_mul]; rfl

/-- The relative target in words, whichever the scale. -/
theorem targets_br_iff (n : BitVec 11) (s : State) (t : Word) :
    s.Targets (.br n) t ↔ t = s.pc + branchOffset s.cfg.branchScale n := by
  rw [State.Targets]
  cases s.cfg.branchScale with
  | one => rw [branchOffset_one]; exact toNat_eq_add_emod_iff t s.pc (n.toInt * 1)
  | two => rw [branchOffset_two]; exact toNat_eq_add_emod_iff t s.pc (n.toInt * 2)

/-- A branch has one target. -/
theorem targets_iff {i : Instr} (hb : isBranch i = true) (s : State) (t : Word) :
    s.Targets i t ↔ t = s.branchTarget i := by
  cases i with
  | br n => exact targets_br_iff n s t
  | bsr n => exact targets_br_iff n s t
  | ret => exact Iff.rfl
  | _ => simp [isBranch] at hb

/-! ### Even and odd targets (R171, R174) -/

theorem isOdd_add (a b : Word) : isOdd (a + b) = (isOdd a ^^ isOdd b) := by
  simp [isOdd, BitVec.getElem_add]

/-- With `BRANCH_SCALE` = 1 the offset has the parity of the field. -/
theorem isOdd_branchOffset_one (n : BitVec 11) : isOdd (branchOffset .one n) = decide (n.toNat % 2 = 1) := by
  rw [isOdd, branchOffset, BitVec.getElem_signExtend]
  simp [BitVec.getElem_eq_testBit_toNat]

/-- With `BRANCH_SCALE` = 2 every offset is even. -/
theorem isOdd_branchOffset_two (n : BitVec 11) : isOdd (branchOffset .two n) = false := by
  rw [Bool.eq_false_iff, Ne, isOdd_iff, branchOffset, BitVec.toNat_mul]
  simp

/-! ### BR, BSR and RET by one equation (R170) -/

/-- The register write of the branch `i`: BSR links, BR and RET write none (R172). -/
def State.linked (s : State) : Instr → State
  | .bsr _ => s.setReg linkReg (s.pc + 2)
  | _ => s

/-- A branch writes its target to npc. -/
theorem exec_of_isBranch {i : Instr} (hb : isBranch i = true) (s : State) :
    exec i s = branchTo (s.branchTarget i) (s.linked i) s := by
  cases i with
  | br n => exact execBr_eq n s
  | bsr n => exact execBsr_eq n s
  | ret => rfl
  | _ => simp [isBranch] at hb

/-- Where it may stand, a branch to an even target completes. -/
theorem exec_branch_of_even {i : Instr} {s : State} {t : Word} (hb : isBranch i = true) (hm : s.mayBranch)
    (ht : t = s.branchTarget i) (he : isOdd t = false) : exec i s = .next ((s.linked i).jump t) := by
  subst ht
  rw [exec_of_isBranch hb, branchTo_of_mayBranch hm he]

/-- Where it may stand, a branch to an odd target faults. -/
theorem exec_branch_of_odd {i : Instr} {s : State} {t : Word} (hb : isBranch i = true) (hm : s.mayBranch)
    (ht : t = s.branchTarget i) (ho : isOdd t = true) : exec i s = .fault (.misalignedFetch t s.xpc) := by
  subst ht
  have hno : ¬(s.cfg.branchInSlot = .refuse ∧ s.inSlot = true) := by
    rintro ⟨hr, hslot⟩
    rcases hm with hallow | hpc
    · simp [hr] at hallow
    · simp [hpc] at hslot
  rw [exec_of_isBranch hb, branchTo, if_neg hno, if_pos ho]

/-- A branch that completes has jumped to its target. -/
theorem eq_jump_of_exec_branch {i : Instr} {s t : State} (hb : isBranch i = true) (h : exec i s = .next t) :
    t = (s.linked i).jump (s.branchTarget i) := by
  rw [exec_of_isBranch hb] at h
  rcases branchTo_cases (s.branchTarget i) (s.linked i) s with ⟨-, -, e⟩ | ⟨-, -, e⟩ | ⟨-, -, e⟩ <;> rw [e] at h
  · simp at h
  · simp at h
  · cases h; rfl

/-- The jump keeps what a branch may not write. -/
theorem keeps_jump (s : State) (t : Word) : Keeps [] s (s.jump t) :=
  ⟨fun _ _ => rfl, fun _ => rfl, fun _ => rfl, rfl, rfl, rfl, rfl⟩

theorem keeps_setReg_jump (r : Reg) (v : Word) (s : State) (t : Word) : Keeps [r] s ((s.setReg r v).jump t) :=
  ⟨fun _ hr => State.reg_setReg_other s v (List.ne_of_not_mem_cons hr), fun _ => rfl, fun _ => rfl, rfl, rfl, rfl, rfl⟩

/-- Settles O42: BR jumps to the target and writes nothing else. -/
theorem branchGoesToItsTarget : Obligations.BranchGoesToItsTarget := fun n s target hm ht he =>
  ⟨_, exec_branch_of_even (i := .br n) rfl hm ((targets_br_iff n s target).1 ht) he, rfl, rfl, rfl, rfl, rfl, rfl,
    keeps_jump s target⟩

/-- Settles O43: BSR jumps as BR does from the state with r15 written. -/
theorem branchToSubroutineLinks : Obligations.BranchToSubroutineLinks := fun n s target hm ht he =>
  ⟨_, exec_branch_of_even (i := .bsr n) rfl hm ((targets_br_iff n s target).1 ht) he,
    State.reg_setReg_same s linkReg (s.pc + 2), rfl, rfl, rfl, rfl, rfl, rfl, keeps_setReg_jump linkReg _ s target⟩

/-- Settles O44: RET jumps to r15 and writes nothing else. -/
theorem returnGoesToLinkRegister : Obligations.ReturnGoesToLinkRegister := fun s hm he =>
  ⟨_, exec_branch_of_even (i := .ret) rfl hm rfl he, rfl, rfl, rfl, rfl, rfl, rfl, keeps_jump s (s.reg 15)⟩

/-- Settles O45: with an even pc the target has the parity of the offset, which scale 2 makes even. -/
theorem oddBranchTargetsFault : Obligations.OddBranchTargetsFault := by
  intro s hm
  refine ⟨exec_branch_of_odd rfl hm rfl, fun n hscale hpc hn => ?_, fun n hscale hpc => ?_⟩
  · have ht : s.pc + n.signExtend 16 = s.pc + branchOffset s.cfg.branchScale n := by rw [hscale]; rfl
    have hodd : isOdd (s.pc + n.signExtend 16) = true := by
      rw [ht, isOdd_add, hpc, hscale, isOdd_branchOffset_one]
      simp [hn]
    exact ⟨exec_branch_of_odd (i := .br n) rfl hm ht hodd, exec_branch_of_odd (i := .bsr n) rfl hm ht hodd⟩
  · have heven : isOdd (s.pc + branchOffset s.cfg.branchScale n) = false := by
      rw [isOdd_add, hpc, hscale, isOdd_branchOffset_two]
      rfl
    exact ⟨⟨_, exec_branch_of_even (i := .br n) rfl hm rfl heven⟩, _, exec_branch_of_even (i := .bsr n) rfl hm rfl heven⟩

/-! ### The delay slot (R170, R175) -/

/-- In a delay slot, where the parameter refuses it, a branch faults whatever its target (60_exceptions.md R202). -/
theorem exec_branch_refused {i : Instr} {s : State} (hb : isBranch i = true) (hslot : s.pc ≠ s.xpc + 2)
    (hr : s.cfg.branchInSlot = .refuse) : exec i s = .fault (.branchInDelaySlot s.xpc s.pc) := by
  have hin : s.inSlot = true := by rw [inSlot_eq, bne_iff_ne]; exact hslot
  rw [exec_of_isBranch hb, branchTo, if_pos ⟨hr, hin⟩]

/-- Settles O46: the slot is refused first, or is no obstacle. -/
theorem branchInDelaySlotFollowsItsParameter : Obligations.BranchInDelaySlotFollowsItsParameter := by
  intro s hslot
  refine ⟨fun hr i hb => exec_branch_refused hb hslot hr, fun hallow => ?_⟩
  have hm : s.mayBranch := .inl hallow
  refine ⟨fun n he => ⟨?br, ?bsr⟩, fun he => ?ret⟩
  case br => exact ⟨_, exec_branch_of_even (i := .br n) rfl hm rfl he, rfl, rfl⟩
  case bsr =>
    exact ⟨_, exec_branch_of_even (i := .bsr n) rfl hm rfl he, rfl, rfl, State.reg_setReg_same s linkReg (s.pc + 2)⟩
  case ret => exact ⟨_, exec_branch_of_even (i := .ret) rfl hm rfl he, rfl, rfl⟩

/-- On a ready data bus the instruction at pc executes next, and only a branch writes npc (10_state.md R25). -/
theorem NextShape.flow {i : Instr} {s t : State} (h : NextShape i s t) (hr : s.dbusReady = true) :
    t.xpc = s.pc ∧ (isBranch i = false → t.pc = s.pc + 2) := by
  cases h with
  | wait _ _ _ hw => simp [hw] at hr
  | store a b => exact ⟨State.advanceAfterStore_xpc .., fun _ => State.advanceAfterStore_pc ..⟩
  | branch t hb => exact ⟨rfl, fun hnb => by simp [hb] at hnb⟩
  | link t hb => exact ⟨rfl, fun hnb => by simp [hb] at hnb⟩
  | _ => exact ⟨rfl, fun _ => State.advance_pc _⟩

/-- On a ready instruction bus a step that completes without a skip has executed an instruction. -/
theorem executes_of_step_next {s t : State} (hr : s.ibusReady = true) (hskip : s.skip = false) (h : step s = .next t) :
    ∃ i, s.executes i ∧ NextShape i s t := by
  rcases step_next_cases h with ⟨hf, -⟩ | ⟨w, -, hs, -⟩ | ⟨i, hex, -, hshape⟩
  · rcases fetch_cases s with ⟨-, e⟩ | ⟨-, hnr, -⟩ | ⟨-, -, -, e⟩ | ⟨-, -, -, e⟩
    · simp [hf] at e
    · simp [hr] at hnr
    · simp [hf] at e
    · simp [hf] at e
  · simp [hskip] at hs
  · exact ⟨i, hex, hshape⟩

@[simp] theorem State.linked_pc (s : State) (i : Instr) : (s.linked i).pc = s.pc := by
  cases i <;> rfl

@[simp] theorem State.linked_skip (s : State) (i : Instr) : (s.linked i).skip = s.skip := by
  cases i <;> rfl

/-- Settles O47: the branch jumps and leaves `skip` 0, so the next step executes the slot, which moves the target from pc to
xpc. -/
theorem delaySlotExecutesBeforeTarget : Obligations.DelaySlotExecutesBeforeTarget := by
  intro s t u i hd hr hex hb hst htu
  obtain ⟨-, -, hir, hdr⟩ := stepNeverWritesInstructionMemory s t hst
  have ht : t = (s.linked i).jump (s.branchTarget i) :=
    eq_jump_of_exec_branch hb ((step_of_executes hex).symm.trans hst)
  have hxpc : t.xpc = s.pc := by rw [ht, State.jump_xpc, State.linked_pc]
  have hskip : t.skip = false := by rw [ht, State.jump_skip, State.linked_skip, hex.1]
  have htarget : s.Targets i t.pc := (targets_iff hb s t.pc).2 (by rw [ht, State.jump_pc])
  obtain ⟨j, hslot, hshape⟩ := executes_of_step_next (hir.trans hr) hskip htu
  obtain ⟨hux, hupc⟩ := hshape.flow (hdr.trans hd)
  refine ⟨hxpc, hskip, htarget, fun w k hf hk => ?_, hux ▸ htarget, fun hnb => ?_⟩
  · exact (step_of_executes ⟨hskip, w, hf, hk⟩).symm.trans htu
  · rw [hux, hupc (hnb j hslot)]

end Sys2Proof.Machine
end

section
/-! SUPPORT. Proofs of the family 46_conditional.md: the third equation of IFS, on an undefined flag, what an IFS
that completes leaves behind, and the instruction after it. -/

namespace Sys2Proof.Machine

open Sys2Proof

/-! ### IFS on an undefined flag (R183) -/

/-- With `UNDEF_FLAG_READ` = fault an IFS whose condition names an undefined flag is a fault. -/
theorem exec_ifs_undefined {s : State} (hfault : s.cfg.undefFlagRead = .fault) {code : BitVec 4} {k : Cond}
    (hk : condOf s.cfg code = some k) (hu : condReadsUndef k s.flags = true) :
    exec (.ifs code) s = .fault (.undefinedFlagRead code s.xpc) := by
  simp only [exec, execIfs, hk, hfault, condHolds_fault hu]

/-- Opposite conditions name the same flags. -/
theorem condReadsUndef_opposite (k : Cond) (f : Flags) : condReadsUndef k.opposite f = condReadsUndef k f := by
  cases k <;> rfl

/-- Of a pair of codes both fault where one does. -/
theorem exec_ifs_undefined_pair {s : State} (hfault : s.cfg.undefFlagRead = .fault) {code code' : BitVec 4} {k : Cond}
    (hk : condOf s.cfg code = some k) (hk' : condOf s.cfg code' = some k.opposite)
    (hu : condReadsUndef k s.flags = true) :
    exec (.ifs code) s = .fault (.undefinedFlagRead code s.xpc) ∧
      exec (.ifs code') s = .fault (.undefinedFlagRead code' s.xpc) :=
  ⟨exec_ifs_undefined hfault hk hu, exec_ifs_undefined hfault hk' ((condReadsUndef_opposite k s.flags).trans hu)⟩

/-- Settles O53: the codes pair by pair, each pair with the flags its conditions name. -/
theorem ifsOnUndefinedFlagFaults : Obligations.IfsOnUndefinedFlagFaults := by
  intro s hfault
  refine ⟨exec_ifs_undefined_pair hfault (k := .cc) rfl rfl, exec_ifs_undefined_pair hfault (k := .ne) rfl rfl,
    exec_ifs_undefined_pair hfault (k := .pl) rfl rfl,
    fun hu => exec_ifs_undefined_pair hfault (k := .lt) rfl rfl ((Bool.or_eq_true_iff ..).2 hu), fun hc => ?high⟩
  case high =>
    obtain ⟨h8, h9, hA, hB, hC, hD, -⟩ := condOf_inOrder hc
    refine ⟨fun hu => exec_ifs_undefined_pair hfault h8 h9 ?_, exec_ifs_undefined_pair hfault hA hB,
      fun hu => exec_ifs_undefined_pair hfault hC hD ((Bool.or_eq_true_iff ..).2 hu)⟩
    simpa [condReadsUndef, or_assoc] using hu

/-! ### IFS that completes, and the instruction after it (R180 to R182) -/

/-- Moving on with `skip` written keeps every register, both memories and the transfers. -/
theorem keeps_advance_withSkip (s : State) (b : Bool) : Keeps [] s { s.advance with skip := b } :=
  ⟨fun _ _ => rfl, fun _ => rfl, fun _ => rfl, rfl, rfl, rfl, rfl⟩

/-- What each of two steps keeps, both keep. -/
theorem Keeps.trans {ds : List Reg} {s t u : State} (hst : Keeps ds s t) (htu : Keeps ds t u) : Keeps ds s u where
  regs r hr := (htu.regs r hr).trans (hst.regs r hr)
  imem a := (htu.imem a).trans (hst.imem a)
  dmem a := (htu.dmem a).trans (hst.dmem a)
  cfg := htu.cfg.trans hst.cfg
  ibusReady := htu.ibusReady.trans hst.ibusReady
  dbusReady := htu.dbusReady.trans hst.dbusReady
  io := htu.io.trans hst.io

/-- An IFS that completes has moved on and written `skip`, and nothing else. -/
theorem exec_ifs_next {code : BitVec 4} {s t : State} (h : exec (.ifs code) s = .next t) :
    ∃ b, t = { s.advance with skip := b } := by
  cases hk : condOf s.cfg code with
  | none => simp [exec_ifs_reserved hk] at h
  | some k =>
    cases hm : s.cfg.undefFlagRead with
    | free =>
      rw [exec_ifs_free hm hk] at h
      cases h
      exact ⟨_, rfl⟩
    | fault =>
      cases hu : condReadsUndef k s.flags with
      | false =>
        rw [exec_ifs_defined hk hu] at h
        cases h
        exact ⟨_, rfl⟩
      | true => simp [exec_ifs_undefined hm hk hu] at h

/-- Settles O50: the two equations of an IFS that completes have one next state. -/
theorem ifsWritesSkipOnly : Obligations.IfsWritesSkipOnly := by
  intro s code k hk hanswers
  exact ⟨_, hanswers.elim (exec_ifs_defined hk) (exec_ifs_free · hk), rfl, rfl, rfl, rfl, State.advance_pc s, rfl,
    keeps_advance_withSkip s _⟩

/-- Settles O56: the step after the IFS skips over the word it fetches, so what IFS left as it was stays so. -/
theorem falseIfsSkipsExactlyOneInstruction : Obligations.FalseIfsSkipsExactlyOneInstruction := by
  intro s t code w h hskip hf
  obtain ⟨b, rfl⟩ := exec_ifs_next h
  exact ⟨_, step_of_skip hf hskip, rfl, rfl, State.skipOver_pc _, rfl,
    (keeps_advance_withSkip s b).trans (keeps_skipOver _)⟩

end Sys2Proof.Machine
end

section
/-! SUPPORT. Proofs of the family 60_exceptions.md: which instruction a completed step owes its flow of control to, and the rows
of R201 that exec's faults come from. -/

namespace Sys2Proof.Machine

open Sys2Proof

/-! ### The flow of control (R200) -/

/-- On a ready instruction bus a fetch does not wait (20_memory.md R62). -/
theorem fetch_ne_wait {s : State} (hr : s.ibusReady = true) : s.fetch ≠ .wait := by
  intro hf
  rcases fetch_cases s with ⟨-, e⟩ | ⟨-, hnr, -⟩ | ⟨-, -, -, e⟩ | ⟨-, -, -, e⟩
  · simp [hf] at e
  · simp [hr] at hnr
  · simp [hf] at e
  · simp [hf] at e

/-- Only IFS writes `skip`. -/
theorem NextShape.skip_eq_or_ifs {i : Instr} {s t : State} (h : NextShape i s t) :
    t.skip = s.skip ∨ ∃ code, i = .ifs code := by
  cases h with
  | store a b => exact .inl (State.advanceAfterStore_skip ..)
  | ifs code b hi => exact .inr ⟨code, hi⟩
  | _ => exact .inl rfl

/-- Settles O17: on a ready bus a step that completes has skipped the word fetched or executed an instruction. -/
theorem onlyBranchesAndIfsChangeTheFlow : Obligations.OnlyBranchesAndIfsChangeTheFlow := by
  intro s t hir hdr h
  rcases step_next_cases h with ⟨hwait, -⟩ | ⟨w, -, -, rfl⟩ | ⟨i, hex, -, hshape⟩
  · exact absurd hwait (fetch_ne_wait hir)
  · exact ⟨State.skipOver_xpc s, .inl (State.skipOver_pc s), nofun⟩
  · obtain ⟨hxpc, hpc⟩ := hshape.flow hdr
    have ⟨hnoskip, _⟩ := hex
    refine ⟨hxpc, ?_, fun hskip => ?_⟩
    · cases hb : isBranch i with
      | false => exact .inl (hpc hb)
      | true => exact .inr ⟨i, hex, hb⟩
    · rcases hshape.skip_eq_or_ifs with heq | ⟨code, rfl⟩
      · simp [heq, hnoskip] at hskip
      · exact ⟨code, hex⟩

/-! ### The faults of exec (R201) -/

/-- The faults of exec by the rows of R201: the instruction that raises each, the condition, and what is kept. -/
inductive FaultRow (i : Instr) (s : State) : Fault → Prop where
  /-- IFS with a code that has no condition -/
  | reservedCondition (code : BitVec 4) (hi : i = .ifs code) (hk : condOf s.cfg code = none) :
      FaultRow i s (.reservedCondition code s.xpc)
  /-- IFS whose condition names an undefined flag -/
  | undefinedFlagRead (code : BitVec 4) (k : Cond) (hi : i = .ifs code) (hm : s.cfg.undefFlagRead = .fault)
      (hk : condOf s.cfg code = some k) (hu : condReadsUndef k s.flags = true) :
      FaultRow i s (.undefinedFlagRead code s.xpc)
  /-- LSLI with field 0 -/
  | unspecifiedShift (a : Reg) (hi : i = .lsli a 0) (hz : s.cfg.lsliZero = .refuse) :
      FaultRow i s (.unspecifiedShift (s.executedWord i) s.xpc)
  /-- LD and ST at an odd address -/
  | misalignedData (a b : Reg) (hi : i = .ld a b ∨ i = .st a b) (ho : isOdd (s.reg b) = true) :
      FaultRow i s (.misalignedData (s.reg b) s.xpc)
  /-- LD and ST where there is neither memory nor a device -/
  | dataUnmapped (a b : Reg) (hi : i = .ld a b ∨ i = .st a b) (ho : isOdd (s.reg b) = false)
      (hio : admits s.cfg.ioRegions (s.reg b) = false) (hd : admits s.cfg.dmemRegions (s.reg b) = false) :
      FaultRow i s (.dataUnmapped (s.reg b) s.xpc)
  /-- BR, BSR and RET to an odd address -/
  | misalignedFetch (hb : isBranch i = true) (ho : isOdd (s.branchTarget i) = true) :
      FaultRow i s (.misalignedFetch (s.branchTarget i) s.xpc)
  /-- BR, BSR and RET in a delay slot -/
  | branchInDelaySlot (hb : isBranch i = true) (hr : s.cfg.branchInSlot = .refuse) (hslot : s.pc ≠ s.xpc + 2) :
      FaultRow i s (.branchInDelaySlot s.xpc s.pc)

/-- `i` executed in `s` completes, or faults by one of its rows of R201. -/
def CompletesOrFaults (i : Instr) (s : State) : Prop :=
  (∃ t, exec i s = .next t) ∨ ∃ f, exec i s = .fault f ∧ FaultRow i s f

/-- LSLI has no result exactly for field 0 where `LSLI_ZERO` refuses it. -/
theorem lsliResult_eq_none_iff {z : LsliZero} {v : Word} {n : BitVec 4} :
    lsliResult z v n = none ↔ n = 0 ∧ z = .refuse := by
  by_cases hn : n = 0
  · cases z <;> simp [lsliResult, hn]
  · have hshift : lsliResult z v n = some (v <<< (16 - n.toNat)) := if_pos hn
    exact ⟨fun hnone => by simp [hshift] at hnone, fun ⟨h0, _⟩ => absurd h0 hn⟩

/-- LSLI faults where it has no result. -/
theorem lsli_completesOrFaults (a : Reg) (n : BitVec 4) (s : State) : CompletesOrFaults (.lsli a n) s := by
  cases hres : lsliResult s.cfg.lsliZero (s.reg a) n with
  | some r =>
    obtain ⟨t, ht, -⟩ := exec_lsli_next rfl hres
    exact .inl ⟨t, ht⟩
  | none =>
    obtain ⟨rfl, hz⟩ := lsliResult_eq_none_iff.1 hres
    exact .inr ⟨_, exec_lsli_fault rfl hres, .unspecifiedShift a rfl hz⟩

/-- LD: each answer of the read (20_memory.md R57). -/
theorem ld_completesOrFaults (a b : Reg) (s : State) : CompletesOrFaults (.ld a b) s := by
  rcases memRead_cases s (s.reg b) with
    ⟨ho, -⟩ | ⟨ho, hr, -⟩ | ⟨ho, hr, hio, -⟩ | ⟨ho, hr, hio, hd, -⟩ | ⟨ho, hr, hio, hd, -⟩
  · exact .inr ⟨_, exec_ld_misaligned a ho, .misalignedData a b (.inl rfl) ho⟩
  · exact .inl ⟨s, exec_ld_wait a ho hr⟩
  · exact .inl ⟨_, exec_ld_device a ho hr hio⟩
  · exact .inl ⟨_, exec_ld_memory a ho hr hio hd⟩
  · exact .inr ⟨_, exec_ld_unmapped a ho hr hio hd, .dataUnmapped a b (.inl rfl) ho hio hd⟩

/-- ST: each answer of the write (20_memory.md R58). -/
theorem st_completesOrFaults (a b : Reg) (s : State) : CompletesOrFaults (.st a b) s := by
  rcases memWrite_cases s (s.reg b) (s.reg a) with
    ⟨ho, -⟩ | ⟨ho, hr, -⟩ | ⟨ho, hr, hio, -⟩ | ⟨ho, hr, hio, hd, -⟩ | ⟨ho, hr, hio, hd, -⟩
  · exact .inr ⟨_, exec_st_misaligned a ho, .misalignedData a b (.inr rfl) ho⟩
  · exact .inl ⟨s, exec_st_wait a ho hr⟩
  · exact .inl ⟨_, exec_st_device a ho hr hio⟩
  · exact .inl ⟨_, exec_st_memory a ho hr hio hd⟩
  · exact .inr ⟨_, exec_st_unmapped a ho hr hio hd, .dataUnmapped a b (.inr rfl) ho hio hd⟩

/-- A branch faults in a slot where the parameter refuses it, then at an odd target. -/
theorem branch_completesOrFaults {i : Instr} (hb : isBranch i = true) (s : State) : CompletesOrFaults i s := by
  rw [CompletesOrFaults, exec_of_isBranch hb]
  rcases branchTo_cases (s.branchTarget i) (s.linked i) s with ⟨hr, hslot, e⟩ | ⟨-, ho, e⟩ | ⟨-, -, e⟩
  · rw [inSlot_eq, bne_iff_ne] at hslot
    exact .inr ⟨_, e, .branchInDelaySlot hb hr hslot⟩
  · exact .inr ⟨_, e, .misalignedFetch hb ho⟩
  · exact .inl ⟨_, e⟩

/-- IFS: no condition, a condition with an answer, or one that reads an undefined flag. -/
theorem ifs_completesOrFaults (code : BitVec 4) (s : State) : CompletesOrFaults (.ifs code) s := by
  cases hk : condOf s.cfg code with
  | none => exact .inr ⟨_, exec_ifs_reserved hk, .reservedCondition code rfl hk⟩
  | some k =>
    cases hm : s.cfg.undefFlagRead with
    | free => exact .inl ⟨_, exec_ifs_free hm hk⟩
    | fault =>
      cases hu : condReadsUndef k s.flags with
      | false => exact .inl ⟨_, exec_ifs_defined hk hu⟩
      | true => exact .inr ⟨_, exec_ifs_undefined hm hk hu, .undefinedFlagRead code k rfl hm hk hu⟩

/-- Every instruction completes or faults by one of its rows; those without a row always complete. -/
theorem exec_completesOrFaults (i : Instr) (s : State) : CompletesOrFaults i s := by
  cases i with
  | lsli a n => exact lsli_completesOrFaults a n s
  | ld a b => exact ld_completesOrFaults a b s
  | st a b => exact st_completesOrFaults a b s
  | br n => exact branch_completesOrFaults rfl s
  | bsr n => exact branch_completesOrFaults rfl s
  | ret => exact branch_completesOrFaults rfl s
  | ifs code => exact ifs_completesOrFaults code s
  | _ => exact .inl ⟨_, rfl⟩

/-- exec refuses nothing. -/
theorem exec_ne_refused (i : Instr) (s : State) (r : Refusal) : exec i s ≠ .refused r := by
  intro h
  rcases exec_completesOrFaults i s with ⟨t, e⟩ | ⟨f, e, -⟩
  · simp [h] at e
  · simp [h] at e

/-- Every fault of exec comes from a row of its instruction. -/
theorem faultRow_of_exec {i : Instr} {s : State} {f : Fault} (h : exec i s = .fault f) : FaultRow i s f := by
  rcases exec_completesOrFaults i s with ⟨t, e⟩ | ⟨f', e, hrow⟩ <;> rw [h] at e
  · simp at e
  · cases e; exact hrow

/-- Settles O20: row by row. -/
theorem faultsComeFromTheirInstructionsOnly : Obligations.FaultsComeFromTheirInstructionsOnly := by
  refine fun i s => ⟨exec_ne_refused i s, fun f h => ?_⟩
  cases faultRow_of_exec h with
  | reservedCondition code hi hk => exact ⟨hi, rfl, hk⟩
  | undefinedFlagRead code k hi hm hk hu => exact ⟨hi, rfl, hm, k, hk, hu⟩
  | unspecifiedShift a hi hz => exact ⟨rfl, hz, ⟨a, hi⟩, fun w hw => executedWord_of_fetch hw i⟩
  | misalignedData a b hi ho => exact ⟨rfl, ho, a, b, hi, rfl⟩
  | dataUnmapped a b hi ho hio hd => exact ⟨rfl, ho, hio, hd, a, b, hi, rfl⟩
  | misalignedFetch hb ho => exact ⟨rfl, ho, (targets_iff hb s _).2 rfl⟩
  | branchInDelaySlot hb hr hslot => exact ⟨rfl, rfl, hslot, hb, hr⟩

end Sys2Proof.Machine
end

section
/-! SUPPORT. Proof of the family of the example words: the decoder gives back the instruction a word was written out from. -/

namespace Sys2Proof.Machine

open Sys2Proof

/-- The word written out from the encoding of a well-formed instruction decodes to it. -/
theorem decode_of_encode_eq {c : Config} {w : Word} {i : Instr} (hw : encode c i = w) (h : i.wf = true) :
    decode c w = .ok i :=
  hw ▸ decodeOfEncodeIsIdentity c i h

/-- Settles O1: each word is the one the encoder writes for its instruction. -/
theorem manualExampleWordsDecode : Obligations.ManualExampleWordsDecode := by
  rw [Obligations.ManualExampleWordsDecode]
  and_intros <;> exact decode_of_encode_eq rfl rfl

end Sys2Proof.Machine
end
